-- ==== Sys2Proof/Word.lean ====
section
/-! DEFINITION. The kinds of value of the CORE (spec/10_state.md R32): Bit, Byte and the 64-bit port word. -/

namespace Sys2Proof

/-- A Bit: "an enumerated value of exactly two states, `Zero` or `One`" (R30). -/
inductive Bit where
  | zero
  | one
deriving DecidableEq, Repr

/-- A Byte: "an 8-bit unsigned quantity" (R32). -/
abbrev Byte := BitVec 8

/-- The 64 wires of `value_in` and `value_out` (R21, R22). -/
abbrev PortWord := BitVec 64

end Sys2Proof
end

