-- ==== Sys2Proof/Syntax.lean ====
section
/-! DEFINITION. The commands of the CORE (spec/30_encoding.md R60 to R69), the integer types (spec/00_scope.md R6) and a
request (spec/10_state.md R21). -/

namespace Sys2Proof

/-- The operation a command word selects (R61). -/
inductive Op where
  | pack
  | decode
  | encode
  | shl
deriving DecidableEq, Repr

/-- The four bit widths: "bit width ∈ {8,16,32,64}" (R6, R63). -/
inductive Width where
  | w8
  | w16
  | w32
  | w64
deriving DecidableEq, Repr

/-- An integer type is "a pair of a bit width and a signedness" (R6). -/
structure IntType where
  width : Width
  signed : Bool
deriving DecidableEq, Repr

namespace IntType

def u8 : IntType := ⟨.w8, false⟩
def u16 : IntType := ⟨.w16, false⟩
def u32 : IntType := ⟨.w32, false⟩
def u64 : IntType := ⟨.w64, false⟩
def i8 : IntType := ⟨.w8, true⟩
def i16 : IntType := ⟨.w16, true⟩
def i32 : IntType := ⟨.w32, true⟩
def i64 : IntType := ⟨.w64, true⟩

end IntType

/-- What the five bits of a command word say: operation and type (R60). -/
structure CmdFields where
  op : Op
  type : IntType
deriving DecidableEq, Repr

/-- One constructor per row of spec/opcode_table.json (R68): the 28 commands and the 4 reserved words. "The command word
holds no operand" (R60), so no constructor has an argument: operands are fields of the request. -/
inductive Instr where
  | packU8
  | packU16
  | packU32
  | packU64
  | reserved00100
  | reserved00101
  | reserved00110
  | reserved00111
  | decodeU8
  | decodeU16
  | decodeU32
  | decodeU64
  | decodeI8
  | decodeI16
  | decodeI32
  | decodeI64
  | encodeU8
  | encodeU16
  | encodeU32
  | encodeU64
  | encodeI8
  | encodeI16
  | encodeI32
  | encodeI64
  | shlU8
  | shlU16
  | shlU32
  | shlU64
  | shlI8
  | shlI16
  | shlI32
  | shlI64
deriving DecidableEq, Repr

/-- The fields of one request (R21). The ports `n` and `len` are `len(bits_in)` and `len(bytes_in)` (R21, D3): they are
the views `Request.n` and `Request.len`, stored once as the sequences. -/
structure Request where
  /-- `cmd[4:0]`, the command word. -/
  cmd : BitVec 5
  /-- `bits_in`, element 0 first (R64). -/
  bitsIn : List Bit
  /-- `bytes_in`, the buffer IBUF, index 0 first (R65). -/
  bytesIn : List Byte
  /-- `value_in[63:0]`; a command of type T reads bits `W(T)-1` to 0 only (R29). -/
  valueIn : PortWord
  /-- `count`, a mathematical integer (R66). -/
  count : Int
  /-- `total_bytes`, a mathematical integer (R66). -/
  totalBytes : Int
deriving DecidableEq, Repr

end Sys2Proof
end

