-- ==== Sys2Proof/Decode.lean ====
section
/-! DEFINITION. The command word: decoding by its fields (spec/30_encoding.md R60 to R63, R69) and encoding by the opcode
map (R68). The two are written from different tables of the spec, so that their round trip says something. -/

namespace Sys2Proof

/-- `op = cmd[4:3]` (R60). -/
def opField (w : BitVec 5) : BitVec 2 := w.extractLsb' 3 2

/-- `sgn = cmd[2]` (R60). -/
def sgnField (w : BitVec 5) : BitVec 1 := w.extractLsb' 2 1

/-- `wl = cmd[1:0]` (R60). -/
def wlField (w : BitVec 5) : BitVec 2 := w.extractLsb' 0 2

/-- R61: `00` PACK, `01` DECODE, `10` ENCODE, `11` SHL. -/
def Op.ofField (f : BitVec 2) : Op :=
  if f = 0b00#2 then .pack else if f = 0b01#2 then .decode else if f = 0b10#2 then .encode else .shl

/-- R62: `sgn = 0` selects an unsigned type, `sgn = 1` a signed type. -/
def signedOfField (f : BitVec 1) : Bool := f == 1#1

/-- R63: `wl` is the base-2 logarithm of the byte-width. -/
def Width.ofField (f : BitVec 2) : Width :=
  if f = 0b00#2 then .w8 else if f = 0b01#2 then .w16 else if f = 0b10#2 then .w32 else .w64

/-- The operation and type a command word names (R60). -/
def CmdFields.ofWord (w : BitVec 5) : CmdFields :=
  { op := Op.ofField (opField w)
    type := { width := Width.ofField (wlField w), signed := signedOfField (sgnField w) } }

/-- The command of an operation at a type (R68); PACK at a signed type is a reserved word (R69). -/
def Instr.ofFields (f : CmdFields) : Instr :=
  match f.op, f.type.signed, f.type.width with
  | .pack, false, .w8 => .packU8
  | .pack, false, .w16 => .packU16
  | .pack, false, .w32 => .packU32
  | .pack, false, .w64 => .packU64
  | .pack, true, .w8 => .reserved00100
  | .pack, true, .w16 => .reserved00101
  | .pack, true, .w32 => .reserved00110
  | .pack, true, .w64 => .reserved00111
  | .decode, false, .w8 => .decodeU8
  | .decode, false, .w16 => .decodeU16
  | .decode, false, .w32 => .decodeU32
  | .decode, false, .w64 => .decodeU64
  | .decode, true, .w8 => .decodeI8
  | .decode, true, .w16 => .decodeI16
  | .decode, true, .w32 => .decodeI32
  | .decode, true, .w64 => .decodeI64
  | .encode, false, .w8 => .encodeU8
  | .encode, false, .w16 => .encodeU16
  | .encode, false, .w32 => .encodeU32
  | .encode, false, .w64 => .encodeU64
  | .encode, true, .w8 => .encodeI8
  | .encode, true, .w16 => .encodeI16
  | .encode, true, .w32 => .encodeI32
  | .encode, true, .w64 => .encodeI64
  | .shl, false, .w8 => .shlU8
  | .shl, false, .w16 => .shlU16
  | .shl, false, .w32 => .shlU32
  | .shl, false, .w64 => .shlU64
  | .shl, true, .w8 => .shlI8
  | .shl, true, .w16 => .shlI16
  | .shl, true, .w32 => .shlI32
  | .shl, true, .w64 => .shlI64

/-- "Decoding is total: every one of the 32 words is either one of the 28 commands or reserved" (R69). -/
def decode (w : BitVec 5) : Instr := Instr.ofFields (CmdFields.ofWord w)

/-- Why a number is not a command word. -/
inductive DecodeError where
  /-- It has a bit above bit 4, and the command word has five bits (R60). -/
  | widerThanFiveBits
deriving DecidableEq, Repr

/-- The decoder on any number: a number of more than five bits is rejected by name. -/
def decodeNat (w : Nat) : Except DecodeError Instr :=
  if w < 32 then .ok (decode (BitVec.ofNat 5 w)) else .error .widerThanFiveBits

/-- The instruction of the word whose bits are `w`, as the opcode table numbers them. A row has five bits, one byte; the
bits above bit 4 are no part of the command word, and a word with one of them set is no row. -/
def decodeTableWord (_nbits w : Nat) : Option Instr := (decodeNat w).toOption

/-- The command word of each row of the opcode map (R68). -/
def encode : Instr → BitVec 5
  | .packU8 => 0b00000#5
  | .packU16 => 0b00001#5
  | .packU32 => 0b00010#5
  | .packU64 => 0b00011#5
  | .reserved00100 => 0b00100#5
  | .reserved00101 => 0b00101#5
  | .reserved00110 => 0b00110#5
  | .reserved00111 => 0b00111#5
  | .decodeU8 => 0b01000#5
  | .decodeU16 => 0b01001#5
  | .decodeU32 => 0b01010#5
  | .decodeU64 => 0b01011#5
  | .decodeI8 => 0b01100#5
  | .decodeI16 => 0b01101#5
  | .decodeI32 => 0b01110#5
  | .decodeI64 => 0b01111#5
  | .encodeU8 => 0b10000#5
  | .encodeU16 => 0b10001#5
  | .encodeU32 => 0b10010#5
  | .encodeU64 => 0b10011#5
  | .encodeI8 => 0b10100#5
  | .encodeI16 => 0b10101#5
  | .encodeI32 => 0b10110#5
  | .encodeI64 => 0b10111#5
  | .shlU8 => 0b11000#5
  | .shlU16 => 0b11001#5
  | .shlU32 => 0b11010#5
  | .shlU64 => 0b11011#5
  | .shlI8 => 0b11100#5
  | .shlI16 => 0b11101#5
  | .shlI32 => 0b11110#5
  | .shlI64 => 0b11111#5

/-- The operation and type of an instruction's word (R60, R68). -/
def Instr.fields (i : Instr) : CmdFields := CmdFields.ofWord (encode i)

end Sys2Proof
end

