-- ==== Sys2Proof/Config.lean ====
section
/-! DEFINITION. What an implementation fixes (spec/00_scope.md R7) and the one value the spec leaves free
(spec/40_bitpacker.md R84). -/

namespace Sys2Proof

/-- The parameters the spec leaves OPEN (R7). The semantics of every rule are over mathematical integers, so no result
depends on them; they bound what an implementation can be handed. -/
structure Params where
  /-- `CW`, the width of the `count` port (D2). -/
  cw : Nat
  /-- `LW`, the width of the `total_bytes` port (signed) and of the length ports `n`, `len`, `out_len` (unsigned) (D3). -/
  lw : Nat
  /-- `MAXLEN`, the longest sequence accepted or returned; `none` is unbounded (D4). -/
  maxLen : Option Nat
deriving DecidableEq, Repr

/-- The defaults of R7: 64, 64, unbounded. -/
def Params.default : Params := { cw := 64, lw := 64, maxLen := none }

namespace Config

/-- The result of PACK when `n > W(T)`: `any value`, "a free `W`-bit draw with no law" (R84, U1). FREE VALUE: no body, so
nothing can be proved of it. It takes the width, the bits and the number of the draw, so that no law links two draws
of one run; two runs at the same three draw the same value, which R84 does not say (assumption 4). -/
opaque packOversize (W : Nat) (bits : List Bit) (draw : Nat) : BitVec W

end Config

end Sys2Proof
end

