-- ==== Sys2Proof/Machine/State.lean ====
section
/-! DEFINITION. State, the response, the reasons a step can stop, and reset (spec/10_state.md). -/

namespace Sys2Proof.Machine

/-- The precondition a request broke (spec/60_exceptions.md R171). "A model may carry the cause as an enumeration"; its
codes are in Machine/Flags.lean. -/
inductive Cause where
  /-- ENCODE with `total_bytes < 0` (R172). -/
  | negativeTotalBytes
  /-- SHL with a nonzero operand and `count < 0` (R173). -/
  | negativeCount
  /-- A reserved command word (R174). -/
  | illegalCommand
deriving DecidableEq, Repr

/-- The response ports (R22). A result port that the command does not drive "carries no value" (R31): `none` is the
spec's own state of the port. `out_len` is `len(bytes_out)` (R22), the view `Response.outLen`. -/
structure Response where
  /-- `status`: 0 = OK, 1 = InvalidArgument. -/
  status : BitVec 1
  /-- `cause[1:0]`: which precondition failed; 0 when `status = 0`. -/
  cause : BitVec 2
  /-- `value_out[63:0]`, the integer result of PACK, DECODE and SHL. -/
  valueOut : Option PortWord
  /-- `bytes_out`, the output buffer OBUF of ENCODE. -/
  bytesOut : Option (List Byte)
deriving DecidableEq, Repr

/-- The names of the response ports (R22). -/
inductive OutPort where
  | status
  | cause
  | valueOut
  | bytesOut
  | outLen
deriving DecidableEq, Repr

/-- The model's faults. -/
inductive Fault where
  /-- A response port was read that carries no value: R31 ("reading one is a model fault"), R33, U5, U6, U9. Raised by the
  caller's port reads of Machine/Caller.lean; no command and no step raises it. Safe: hardware would deliver some value. -/
  | portCarriesNoValue (port : OutPort)
deriving DecidableEq, Repr

/-- The model's refusals. -/
inductive Refusal where
  /-- The instruction has no meaning yet; raised by exec's arm alone. Safe. No arm raises it. -/
  | notModelled (mnemonic : String)
  /-- The request needs a sequence longer than `MAXLEN`: it "is refused at the boundary and is not a command of this spec"
  (spec/20_memory.md R56, U7). Raised by PACK, DECODE and ENCODE where `params.maxLen` is set. Safe. -/
  | overMaxLen
  /-- A line of a caller's program that cannot be issued: it names a value or buffer that nothing has bound, or asks PACK
  for a signed type (spec/30_encoding.md R70, R71). Raised by `Caller.runLine` alone; no command and no step raises it. Safe. -/
  | lineNotIssuable
deriving DecidableEq, Repr

/-- The CORE keeps nothing from one command to the next (R20, R23, R24, R25, R28): State is its ports, the caller's side of
a run (spec/00_scope.md R18), the implementation's parameters and the model's draw counter. -/
structure State where
  /-- The request ports (R21): the request of the command in hand. -/
  req : Request
  /-- The response ports (R22); `none` until the first response (R33). -/
  response : Option Response
  /-- The rest of the caller's command list, next first (R18, R23). -/
  pending : List Request
  /-- The responses delivered so far, oldest first: the result of the run (R18), kept by the caller (R178). -/
  delivered : List Response
  /-- The parameters of this implementation (R7); no step writes them (assumption 5). -/
  params : Params
  /-- THE MODEL'S OWN: how many free values have been drawn (R84, assumption 4). -/
  draws : Nat
deriving DecidableEq, Repr

/-- Request ports that nothing has driven. DESIGN CHOICE: the spec gives them no reset value (assumption 3); no response
rests on them, since a step puts a request on the ports before a command runs. -/
def Request.idle : Request :=
  { cmd := 0b00000#5, bitsIn := [], bytesIn := [], valueIn := 0#64, count := 0, totalBytes := 0 }

/-- Right after reset: response ports without a value (R33), nothing issued and nothing delivered (R200), the parameters
at their defaults (R7). -/
def State.reset : State :=
  { req := Request.idle
    response := none
    pending := []
    delivered := []
    params := Params.default
    draws := 0 }

end Sys2Proof.Machine
end

