-- ==== Sys2Proof/Machine/Flags.lean ====
section
/-! DEFINITION. The CORE has no flags (spec/10_state.md R24): "the only flag-like output is `status` with `cause`". Their
codes (spec/60_exceptions.md R171) and the three shapes of a response (R31, R177). -/

namespace Sys2Proof.Machine

/-- `status = 0`: OK (R171). -/
def statusOk : BitVec 1 := 0#1

/-- `status = 1`: InvalidArgument (R171). -/
def statusInvalidArgument : BitVec 1 := 1#1

/-- `cause = 00`: none (R171). -/
def causeNone : BitVec 2 := 0b00#2

/-- The code of a cause (R171). -/
def Cause.code : Cause → BitVec 2
  | .negativeTotalBytes => 0b01#2
  | .negativeCount => 0b10#2
  | .illegalCommand => 0b11#2

/-- The response of a successful PACK, DECODE or SHL: it drives `value_out` (R31). -/
def Response.ofValue (v : PortWord) : Response :=
  { status := statusOk, cause := causeNone, valueOut := some v, bytesOut := none }

/-- The response of a successful ENCODE: it drives `bytes_out` and `out_len` (R31). -/
def Response.ofBytes (b : List Byte) : Response :=
  { status := statusOk, cause := causeNone, valueOut := none, bytesOut := some b }

/-- The response of a faulting command: "only `status` and `cause` are driven" (R31, R177). -/
def Response.invalidArgument (c : Cause) : Response :=
  { status := statusInvalidArgument, cause := c.code, valueOut := none, bytesOut := none }

/-- The port `out_len = len(bytes_out)` (R22). -/
def Response.outLen (r : Response) : Option Nat := r.bytesOut.map List.length

end Sys2Proof.Machine
end

