-- ==== Sys2Proof/Machine/Operands.lean ====
section
/-! DEFINITION. The widths of the integer types and how operands and results sit on the ports (spec/00_scope.md R6,
spec/10_state.md R21, R29, R30, spec/20_memory.md R53, R54). -/

namespace Sys2Proof

/-- `w(T)`, the byte-width: 1, 2, 4 or 8 (R6, R63). -/
def Width.bytes : Width → Nat
  | .w8 => 1
  | .w16 => 2
  | .w32 => 4
  | .w64 => 8

namespace IntType

/-- `w(T)` (R6). -/
def bytes (T : IntType) : Nat := T.width.bytes

/-- `W(T)`, the source's bitsCount: "byte-width × 8" (R6). -/
def bits (T : IntType) : Nat := T.bytes * 8

/-- The numeric value of a pattern of type T: `p` itself, less `2^W` for a signed type whose top bit is set (R11; two's
complement is general knowledge, G1, assumption 10). No rule's result reads it. -/
def numericValue (T : IntType) (p : BitVec T.bits) : Int :=
  if T.signed && p.getLsbD (T.bits - 1) then (p.toNat : Int) - 2 ^ T.bits else p.toNat

end IntType

/-- The wire value of a Bit: `Zero` is 0 and `One` is 1 (R30). -/
def Bit.wire : Bit → BitVec 1
  | .zero => 0#1
  | .one => 1#1

namespace Request

/-- The port `n = len(bits_in)` (R21). -/
def n (r : Request) : Nat := r.bitsIn.length

/-- The port `len = len(bytes_in)` (R21). -/
def len (r : Request) : Nat := r.bytesIn.length

/-- The operand pattern `value_in[W-1:0]`; the bits above are ignored (R29, R67). -/
def operand (r : Request) (W : Nat) : BitVec W := r.valueIn.setWidth W

end Request

/-- An implementation with `MAXLEN` set accepts `k <= MAXLEN` elements only (R41, R56). -/
def Params.admits (p : Params) (k : Nat) : Bool :=
  match p.maxLen with
  | none => true
  | some m => decide (k ≤ m)

namespace Machine

/-- `zext_64(p)`: a result pattern as `value_out` carries it, zeros above, for signed types too (R29). -/
def zext64 {W : Nat} (p : BitVec W) : PortWord := p.setWidth 64

/-- Byte lane `j`, `p[8j+7 : 8j]` (spec/00_scope.md R10). -/
def lane {W : Nat} (p : BitVec W) (j : Nat) : Byte := p.extractLsb' (8 * j) 8

/-- `p[8j+7 : 8j] <- v` (R10, R100). -/
def setLane {W : Nat} (p : BitVec W) (j : Nat) (v : Byte) : BitVec W :=
  (p &&& ~~~((0xFF#8).setWidth W <<< (8 * j))) ||| (v.setWidth W <<< (8 * j))

/-- `p[k] <- 1`. -/
def setBit {W : Nat} (p : BitVec W) (k : Nat) : BitVec W := p ||| BitVec.twoPow W k

/-- `p[k] <- 0`. -/
def clearBit {W : Nat} (p : BitVec W) (k : Nat) : BitVec W := p &&& ~~~BitVec.twoPow W k

/-- `MemRead(i, 1)`: the byte of IBUF at index `i` (R53). "No rule calls it with `i` outside" the buffer (lemma
`window_reads_inside`), so the value there is never used. -/
def memRead (buf : List Byte) (i : Nat) : Byte := buf.getD i 0#8

/-- `MemWrite(i, 1, v)`: set the byte of OBUF at index `i` (R54). -/
def memWrite (buf : List Byte) (i : Nat) (v : Byte) : List Byte := buf.set i v

end Machine

end Sys2Proof
end

