-- ==== Sys2Proof/Machine/Ops.lean ====
section
/-! DEFINITION. The four algorithms (spec/40_bitpacker.md R80, spec/41_byte_integer_codec.md R100, R110,
spec/42_width_aware_shifter.md R140), delivering a response, raising `InvalidArgument`, and the command of each algorithm
at a type. -/

namespace Sys2Proof.Machine

/-! ### The algorithms -/

/-- The loop of R80 from index `idx` with the accumulator `acc`. -/
def packLoop {W : Nat} : List Bit → Nat → BitVec W → BitVec W
  | [], _, acc => acc
  | .one :: rest, idx, acc => packLoop rest (idx + 1) (setBit acc idx)
  | .zero :: rest, idx, acc => packLoop rest (idx + 1) acc

/-- PACK for `n <= W` (R80): the accumulator is zero at the start (R26). -/
def packPattern (W : Nat) (bits : List Bit) : BitVec W := packLoop bits 0 0#W

/-- `win[i]` of R100 for a `w`-byte window over the buffer. -/
def windowByte (w : Nat) (buf : List Byte) (i : Nat) : Byte :=
  if w ≤ buf.length then memRead buf (buf.length - w + i)
  else if i < w - buf.length then 0#8
  else memRead buf (i - (w - buf.length))

/-- The `w`-byte window of R100, `win[0]` most significant. -/
def window (w : Nat) (buf : List Byte) : List Byte := (List.range w).map (windowByte w buf)

/-- The second loop of R100 after `k` rounds: `win[i]` becomes byte lane `w-1-i`. -/
def laneLoop (W w : Nat) (win : List Byte) : Nat → BitVec W
  | 0 => 0#W
  | k + 1 => setLane (laneLoop W w win k) (w - 1 - k) (memRead win k)

/-- DECODE of a buffer to a type of `w` bytes, `W = 8·w` bits (R100). -/
def decodePattern (W w : Nat) (buf : List Byte) : BitVec W := laneLoop W w (window w buf) w

/-- The loops of R110 after `k` rounds of the second: every byte starts as zero, lane `j` goes to index `L-1-j`. -/
def encodeLoop {W : Nat} (p : BitVec W) (L : Nat) : Nat → List Byte
  | 0 => List.replicate L 0#8
  | k + 1 => memWrite (encodeLoop p L k) (L - 1 - k) (lane p k)

/-- ENCODE of a pattern of `w` bytes into `L` bytes (R110). -/
def encodeBytes {W : Nat} (w : Nat) (p : BitVec W) (L : Nat) : List Byte := encodeLoop p L (min w L)

/-- The loop of R140 after the bit positions below `k`. -/
def shlLoop {W : Nat} (p : BitVec W) (shiftCount : Nat) : Nat → BitVec W
  | 0 => 0#W
  | k + 1 =>
    if p.getLsbD k && decide (k + shiftCount < W) then setBit (shlLoop p shiftCount k) (k + shiftCount)
    else shlLoop p shiftCount k

/-- SHL for `count >= 0` or a zero operand (R140): the capped loop and then the top-bit-clear correction. Both `min` and
`count >= bitsCount` are over integers: `count` is reduced modulo nothing (R147). -/
def shlPattern {W : Nat} (p : BitVec W) (count : Int) : BitVec W :=
  if p = 0#W then 0#W
  else
    let res := shlLoop p (min count ((W : Int) - 1)).toNat W
    if res ≠ 0#W ∧ (W : Int) ≤ count then clearBit res (W - 1) else res

/-! ### The response -/

/-- Deliver a response: it is on the response ports and the caller has it (R17, R18). Nothing else changes (R28). -/
def State.respond (s : State) (r : Response) : State :=
  { s with response := some r, delivered := s.delivered ++ [r] }

/-- `raise InvalidArgument(c)`: "stop the command, set `status <- 1`, `cause <- c`, drive no result" (R170). "Nothing is
saved and nothing is changed" (R177), so there is nothing to return from and no return operation (R178). -/
def State.raise (s : State) (c : Cause) : State := s.respond (Response.invalidArgument c)

/-- The draw of a free value is used up. -/
def State.countDraw (s : State) : State := { s with draws := s.draws + 1 }

/-- A command that needs a sequence of `k` elements is refused at the boundary when `MAXLEN` is set and smaller (R56). -/
def needing (k : Nat) (s : State) (next : State) : Host.Outcome State Fault Refusal :=
  if s.params.admits k then .next next else .refused .overMaxLen

/-! ### The commands of each operation at a type -/

/-- PACK.T (R80 to R84). For `n > W(T)` the result is a free value and the status is OK (R84). -/
def packCommand (T : IntType) (s : State) : Host.Outcome State Fault Refusal :=
  needing s.req.n s
    (if s.req.n ≤ T.bits then s.respond (.ofValue (zext64 (packPattern T.bits s.req.bitsIn)))
     else s.countDraw.respond (.ofValue (zext64 (Config.packOversize T.bits s.req.bitsIn s.draws))))

/-- DECODE.T (R100 to R105). -/
def decodeCommand (T : IntType) (s : State) : Host.Outcome State Fault Refusal :=
  needing s.req.len s (s.respond (.ofValue (zext64 (decodePattern T.bits T.bytes s.req.bytesIn))))

/-- ENCODE.T (R110 to R116). -/
def encodeCommand (T : IntType) (s : State) : Host.Outcome State Fault Refusal :=
  if s.req.totalBytes < 0 then .next (s.raise .negativeTotalBytes)
  else
    needing s.req.totalBytes.toNat s
      (s.respond (.ofBytes (encodeBytes T.bytes (s.req.operand T.bits) s.req.totalBytes.toNat)))

/-- SHL.T (R140 to R149). The zero test comes before the test of the sign of `count` (R140, C7). -/
def shlCommand (T : IntType) (s : State) : Host.Outcome State Fault Refusal :=
  if s.req.operand T.bits ≠ 0 ∧ s.req.count < 0 then .next (s.raise .negativeCount)
  else .next (s.respond (.ofValue (zext64 (shlPattern (s.req.operand T.bits) s.req.count))))

/-- A reserved command word (R69, R174): no operand is read. -/
def reservedCommand (s : State) : Host.Outcome State Fault Refusal := .next (s.raise .illegalCommand)

end Sys2Proof.Machine
end

