-- ==== Sys2Proof/Machine/BitPacker.lean ====
section
/-! DEFINITION. The four PACK commands (spec/40_bitpacker.md R85 to R88). -/

namespace Sys2Proof.Machine

/-- PACK.U8 (R85). -/
def execPackU8 (s : State) : Host.Outcome State Fault Refusal := packCommand .u8 s

/-- PACK.U16 (R86). -/
def execPackU16 (s : State) : Host.Outcome State Fault Refusal := packCommand .u16 s

/-- PACK.U32 (R87). -/
def execPackU32 (s : State) : Host.Outcome State Fault Refusal := packCommand .u32 s

/-- PACK.U64 (R88). -/
def execPackU64 (s : State) : Host.Outcome State Fault Refusal := packCommand .u64 s

end Sys2Proof.Machine
end

