-- ==== Sys2Proof/Machine/ByteIntegerCodec.lean ====
section
/-! DEFINITION. The eight DECODE and eight ENCODE commands (spec/41_byte_integer_codec.md R120 to R135). -/

namespace Sys2Proof.Machine

/-- DECODE.U8 (R120). -/
def execDecodeU8 (s : State) : Host.Outcome State Fault Refusal := decodeCommand .u8 s

/-- DECODE.U16 (R121). -/
def execDecodeU16 (s : State) : Host.Outcome State Fault Refusal := decodeCommand .u16 s

/-- DECODE.U32 (R122). -/
def execDecodeU32 (s : State) : Host.Outcome State Fault Refusal := decodeCommand .u32 s

/-- DECODE.U64 (R123). -/
def execDecodeU64 (s : State) : Host.Outcome State Fault Refusal := decodeCommand .u64 s

/-- DECODE.I8 (R124). -/
def execDecodeI8 (s : State) : Host.Outcome State Fault Refusal := decodeCommand .i8 s

/-- DECODE.I16 (R125). -/
def execDecodeI16 (s : State) : Host.Outcome State Fault Refusal := decodeCommand .i16 s

/-- DECODE.I32 (R126). -/
def execDecodeI32 (s : State) : Host.Outcome State Fault Refusal := decodeCommand .i32 s

/-- DECODE.I64 (R127). -/
def execDecodeI64 (s : State) : Host.Outcome State Fault Refusal := decodeCommand .i64 s

/-- ENCODE.U8 (R128). -/
def execEncodeU8 (s : State) : Host.Outcome State Fault Refusal := encodeCommand .u8 s

/-- ENCODE.U16 (R129). -/
def execEncodeU16 (s : State) : Host.Outcome State Fault Refusal := encodeCommand .u16 s

/-- ENCODE.U32 (R130). -/
def execEncodeU32 (s : State) : Host.Outcome State Fault Refusal := encodeCommand .u32 s

/-- ENCODE.U64 (R131). -/
def execEncodeU64 (s : State) : Host.Outcome State Fault Refusal := encodeCommand .u64 s

/-- ENCODE.I8 (R132). -/
def execEncodeI8 (s : State) : Host.Outcome State Fault Refusal := encodeCommand .i8 s

/-- ENCODE.I16 (R133). -/
def execEncodeI16 (s : State) : Host.Outcome State Fault Refusal := encodeCommand .i16 s

/-- ENCODE.I32 (R134). -/
def execEncodeI32 (s : State) : Host.Outcome State Fault Refusal := encodeCommand .i32 s

/-- ENCODE.I64 (R135). -/
def execEncodeI64 (s : State) : Host.Outcome State Fault Refusal := encodeCommand .i64 s

end Sys2Proof.Machine
end

