-- ==== Sys2Proof/Machine/ReservedWords.lean ====
section
/-! DEFINITION. The four reserved command words (spec/30_encoding.md R69, spec/60_exceptions.md R174). -/

namespace Sys2Proof.Machine

/-- The reserved word `0b00100` (R69). -/
def execReserved00100 (s : State) : Host.Outcome State Fault Refusal := reservedCommand s

/-- The reserved word `0b00101` (R69). -/
def execReserved00101 (s : State) : Host.Outcome State Fault Refusal := reservedCommand s

/-- The reserved word `0b00110` (R69). -/
def execReserved00110 (s : State) : Host.Outcome State Fault Refusal := reservedCommand s

/-- The reserved word `0b00111` (R69). -/
def execReserved00111 (s : State) : Host.Outcome State Fault Refusal := reservedCommand s

end Sys2Proof.Machine
end

