-- ==== Sys2Proof/Machine/WidthAwareShifter.lean ====
section
/-! DEFINITION. The eight SHL commands (spec/42_width_aware_shifter.md R150 to R157). -/

namespace Sys2Proof.Machine

/-- SHL.U8 (R150). -/
def execShlU8 (s : State) : Host.Outcome State Fault Refusal := shlCommand .u8 s

/-- SHL.U16 (R151). -/
def execShlU16 (s : State) : Host.Outcome State Fault Refusal := shlCommand .u16 s

/-- SHL.U32 (R152). -/
def execShlU32 (s : State) : Host.Outcome State Fault Refusal := shlCommand .u32 s

/-- SHL.U64 (R153). -/
def execShlU64 (s : State) : Host.Outcome State Fault Refusal := shlCommand .u64 s

/-- SHL.I8 (R154). -/
def execShlI8 (s : State) : Host.Outcome State Fault Refusal := shlCommand .i8 s

/-- SHL.I16 (R155). -/
def execShlI16 (s : State) : Host.Outcome State Fault Refusal := shlCommand .i16 s

/-- SHL.I32 (R156). -/
def execShlI32 (s : State) : Host.Outcome State Fault Refusal := shlCommand .i32 s

/-- SHL.I64 (R157). -/
def execShlI64 (s : State) : Host.Outcome State Fault Refusal := shlCommand .i64 s

end Sys2Proof.Machine
end

