-- ==== Sys2Proof/Machine/Dispatch.lean ====
section
/-! DEFINITION. One arm per command word (spec/30_encoding.md R68). -/

namespace Sys2Proof.Machine

def exec (i : Instr) (s : State) : Host.Outcome State Fault Refusal :=
  match i with
  | .packU8 => Sys2Proof.Machine.execPackU8 s
  | .packU16 => Sys2Proof.Machine.execPackU16 s
  | .packU32 => Sys2Proof.Machine.execPackU32 s
  | .packU64 => Sys2Proof.Machine.execPackU64 s
  | .reserved00100 => Sys2Proof.Machine.execReserved00100 s
  | .reserved00101 => Sys2Proof.Machine.execReserved00101 s
  | .reserved00110 => Sys2Proof.Machine.execReserved00110 s
  | .reserved00111 => Sys2Proof.Machine.execReserved00111 s
  | .decodeU8 => Sys2Proof.Machine.execDecodeU8 s
  | .decodeU16 => Sys2Proof.Machine.execDecodeU16 s
  | .decodeU32 => Sys2Proof.Machine.execDecodeU32 s
  | .decodeU64 => Sys2Proof.Machine.execDecodeU64 s
  | .decodeI8 => Sys2Proof.Machine.execDecodeI8 s
  | .decodeI16 => Sys2Proof.Machine.execDecodeI16 s
  | .decodeI32 => Sys2Proof.Machine.execDecodeI32 s
  | .decodeI64 => Sys2Proof.Machine.execDecodeI64 s
  | .encodeU8 => Sys2Proof.Machine.execEncodeU8 s
  | .encodeU16 => Sys2Proof.Machine.execEncodeU16 s
  | .encodeU32 => Sys2Proof.Machine.execEncodeU32 s
  | .encodeU64 => Sys2Proof.Machine.execEncodeU64 s
  | .encodeI8 => Sys2Proof.Machine.execEncodeI8 s
  | .encodeI16 => Sys2Proof.Machine.execEncodeI16 s
  | .encodeI32 => Sys2Proof.Machine.execEncodeI32 s
  | .encodeI64 => Sys2Proof.Machine.execEncodeI64 s
  | .shlU8 => Sys2Proof.Machine.execShlU8 s
  | .shlU16 => Sys2Proof.Machine.execShlU16 s
  | .shlU32 => Sys2Proof.Machine.execShlU32 s
  | .shlU64 => Sys2Proof.Machine.execShlU64 s
  | .shlI8 => Sys2Proof.Machine.execShlI8 s
  | .shlI16 => Sys2Proof.Machine.execShlI16 s
  | .shlI32 => Sys2Proof.Machine.execShlI32 s
  | .shlI64 => Sys2Proof.Machine.execShlI64 s

end Sys2Proof.Machine
end

