-- ==== Sys2Proof/Machine/Step.lean ====
section
/-! DEFINITION. One step is one command, from request to response (spec/00_scope.md R17, R18). -/

namespace Sys2Proof.Machine

/-- A request is taken from the caller's list and put on the request ports (R18, R21). -/
def State.present (s : State) (r : Request) (rest : List Request) : State :=
  { s with req := r, pending := rest }

/-- The next command of the run: the caller presents the next request, its command word is decoded (R60, R176), and the
command runs to its response (R48). With no request the CORE is idle (R200) and nothing changes (assumption 6). -/
def step (s : State) : Host.Outcome State Fault Refusal :=
  match s.pending with
  | [] => .next s
  | r :: rest => exec (decode r.cmd) (s.present r rest)

/-- The state in which the next step runs the command word `w`: a request with that word, its operands as the request
ports hold them, is the next one the caller issues. The port `cmd` has five bits (R21), so bits of `w` above bit 4 do not
reach it. -/
def State.withFetchWord (s : State) (_nbits w : Nat) : State :=
  { s with pending := { s.req with cmd := BitVec.ofNat 5 w } :: s.pending }

end Sys2Proof.Machine
end

