-- ==== Sys2Proof/WellFormed.lean ====
section
/-! DEFINITION. What is well formed: a pair of operation and type that is a command (spec/30_encoding.md R69), and a
request that the ports of an implementation can carry (spec/00_scope.md R7, spec/30_encoding.md R66).
`Instr` itself needs no check: its constructors have no arguments, and each is a row of the opcode table. No meaning
depends on these checks (R7: results "do not depend on `CW`, `LW` or `MAXLEN`"). -/

namespace Sys2Proof

/-- A pair of operation and type is one of the 28 commands unless it asks PACK for a signed type: BitPacker is defined only
"where T is a fixed-width unsigned integer type" (R69). -/
def CmdFields.legal (f : CmdFields) : Bool :=
  match f.op with
  | .pack => !f.type.signed
  | .decode => true
  | .encode => true
  | .shl => true

/-- `x` is a two's complement number of `w` bits (R66). -/
def fitsSigned (w : Nat) (x : Int) : Bool :=
  decide (0 < w) && decide (-(2 ^ (w - 1) : Int) ≤ x) && decide (x < (2 ^ (w - 1) : Int))

/-- `k` is an unsigned number of `w` bits (R7, D3). -/
def fitsUnsigned (w : Nat) (k : Nat) : Bool := decide (k < 2 ^ w)

/-- `k` elements are at most `MAXLEN`, where that parameter is set (R41, R56). -/
def withinMaxLen (m : Option Nat) (k : Nat) : Bool := m.all fun b => decide (k ≤ b)

/-- The request is one that the ports of an implementation with parameters `p` can carry (R7, R66). -/
def Request.wellFormed (p : Params) (r : Request) : Bool :=
  fitsSigned p.cw r.count
    && fitsSigned p.lw r.totalBytes
    && fitsUnsigned p.lw r.bitsIn.length
    && fitsUnsigned p.lw r.bytesIn.length
    && withinMaxLen p.maxLen r.bitsIn.length
    && withinMaxLen p.maxLen r.bytesIn.length

end Sys2Proof
end

