-- ==== Sys2Proof/Machine/Caller.lean ====
section
/-! DEFINITION. The caller's side of the interface: reading the response ports (spec/10_state.md R22, R31), and the lines
of a caller's pipeline with the values and buffers it holds (spec/30_encoding.md R71). None of this is state of the CORE:
"Names `v0, v1, ...` stand for integer values held by the caller ...; they are not hardware registers". -/

namespace Sys2Proof.Machine

/-! ### Reading the response ports -/

/-- A port that carries no value cannot be read: "reading one is a model fault" (R31, R33, U5, U6, U9). -/
def readPort {α : Type} (port : OutPort) : Option α → Host.Outcome α Fault Refusal
  | some v => .next v
  | none => .fault (.portCarriesNoValue port)

namespace State

/-- The caller reads `status`. -/
def readStatus (s : State) : Host.Outcome (BitVec 1) Fault Refusal := readPort .status (s.response.map Response.status)

/-- The caller reads `cause`. -/
def readCause (s : State) : Host.Outcome (BitVec 2) Fault Refusal := readPort .cause (s.response.map Response.cause)

/-- The caller reads `value_out`. -/
def readValueOut (s : State) : Host.Outcome PortWord Fault Refusal := readPort .valueOut (s.response.bind Response.valueOut)

/-- The caller reads `bytes_out`. -/
def readBytesOut (s : State) : Host.Outcome (List Byte) Fault Refusal :=
  readPort .bytesOut (s.response.bind Response.bytesOut)

/-- The caller reads `out_len`. -/
def readOutLen (s : State) : Host.Outcome Nat Fault Refusal := readPort .outLen (s.response.bind Response.outLen)

end State

/-! ### Lines of a program -/

/-- `vs`: a value the caller holds, or a literal (R71). -/
inductive ValueSource where
  | held (name : Nat)
  | literal (v : PortWord)
deriving DecidableEq, Repr

/-- `bs`: a buffer the caller holds, or a literal (R71). -/
inductive BufferSource where
  | held (name : Nat)
  | literal (b : List Byte)
deriving DecidableEq, Repr

/-- One line of R71; destinations are the numbers of the names `v<k>` and `b<k>`. -/
inductive Line where
  | pack (T : IntType) (vd : Nat) (bits : List Bit)
  | decode (T : IntType) (vd : Nat) (bs : BufferSource)
  | encode (T : IntType) (bd : Nat) (vs : ValueSource) (L : Int)
  | shl (T : IntType) (vd : Nat) (vs : ValueSource) (c : Int)
deriving DecidableEq, Repr

/-- What the caller holds: its names and what each is bound to (R17, R71). -/
structure Caller where
  values : List (Nat × PortWord)
  buffers : List (Nat × List Byte)
deriving DecidableEq, Repr

/-- Bind a name, in place of what it was bound to. -/
def bindName {α : Type} (k : Nat) (v : α) (held : List (Nat × α)) : List (Nat × α) :=
  (k, v) :: held.filter fun e => e.1 != k

/-- The command a line asks for. -/
def Line.fields : Line → CmdFields
  | .pack T _ _ => ⟨.pack, T⟩
  | .decode T _ _ => ⟨.decode, T⟩
  | .encode T _ _ _ => ⟨.encode, T⟩
  | .shl T _ _ _ => ⟨.shl, T⟩

namespace Caller

/-- The value of a source; none where its name is not bound. -/
def value (c : Caller) : ValueSource → Option PortWord
  | .held k => c.values.lookup k
  | .literal v => some v

/-- The buffer of a source; none where its name is not bound. -/
def buffer (c : Caller) : BufferSource → Option (List Byte)
  | .held k => c.buffers.lookup k
  | .literal b => some b

/-- Put a line's fields on a copy of the request ports `base`; the ports its command does not read stay as they are (R31). -/
def requestOn (c : Caller) (base : Request) (l : Line) : Option Request :=
  let r := { base with cmd := Sys2Proof.encode (Instr.ofFields l.fields) }
  match l with
  | .pack _ _ bits => some { r with bitsIn := bits }
  | .decode _ _ bs => (c.buffer bs).map fun b => { r with bytesIn := b }
  | .encode _ _ vs L => (c.value vs).map fun v => { r with valueIn := v, totalBytes := L }
  | .shl _ _ vs k => (c.value vs).map fun v => { r with valueIn := v, count := k }

/-- The request of a line; there is none where a name is not bound, or where PACK is asked for a signed type (R70). -/
def request (c : Caller) (base : Request) (l : Line) : Option Request :=
  if l.fields.legal then c.requestOn base l else none

/-- Bind a value's name to `value_out[W(T)-1:0]`, where that port carries a value (R71). -/
def bindValue (c : Caller) (T : IntType) (vd : Nat) (r : Response) : Caller :=
  match r.valueOut with
  | some v => { c with values := bindName vd (zext64 (v.setWidth T.bits)) c.values }
  | none => c

/-- Bind a line's destination from the response: `vd <- value_out[W(T)-1:0]`, `bd <- bytes_out`; "A line whose command
ends with `status = 1` binds nothing" (R71), because the result port then carries no value (R177). -/
def bind (c : Caller) (l : Line) (r : Response) : Caller :=
  match l with
  | .pack T vd _ => c.bindValue T vd r
  | .decode T vd _ => c.bindValue T vd r
  | .encode _ bd _ _ =>
    match r.bytesOut with
    | some b => { c with buffers := bindName bd b c.buffers }
    | none => c
  | .shl T vd _ _ => c.bindValue T vd r

/-- The caller issues a line, takes the response and binds the destination (R17, R71). The line goes before whatever other
requests are pending. -/
def runLine (c : Caller) (l : Line) (s : State) : Host.Outcome (Caller × State) Fault Refusal :=
  match c.request s.req l with
  | none => .refused .lineNotIssuable
  | some r =>
    match step { s with pending := r :: s.pending } with
    | .next t => .next ((t.response.map (c.bind l)).getD c, t)
    | .fault f => .fault f
    | .refused f => .refused f

end Caller

end Sys2Proof.Machine
end

