-- ==== Sys2Proof/Safety.lean ====
section
/-! DEFINITION. What the caller owes for a correct result (spec/70_reset_and_hazards.md R205, spec/60_exceptions.md R182),
the shapes a response may have (spec/10_state.md R31, R177), and the invariant of a run. -/

namespace Sys2Proof

/-- The caller's duties for a request of the instruction `i` (R205 a, b, c; R182: a reserved word is not to be sent). -/
def dutiesKept (i : Instr) (r : Request) : Prop :=
  match i.fields.op with
  | .pack => i.fields.type.signed = false ∧ r.n ≤ i.fields.type.bits
  | .decode => True
  | .encode => 0 ≤ r.totalBytes
  | .shl => r.operand i.fields.type.bits = 0 ∨ 0 ≤ r.count

namespace Machine

/-- A response reports OK, cause 0 and exactly one result, or InvalidArgument, a cause and no result (R22, R31, R177). -/
def Response.Legal (r : Response) : Prop :=
  (r.status = 0#1 ∧ r.cause = 0#2 ∧ (r.valueOut.isSome ≠ r.bytesOut.isSome)) ∨
    (r.status = 1#1 ∧ r.cause ≠ 0#2 ∧ r.valueOut = none ∧ r.bytesOut = none)

/-- The invariant of a run: the response ports show the last response delivered, and every response delivered is legal.
That the delivered responses are a list of State is assumption 1; that the ports keep the last of them is assumption 7
(R18 leaves open what the ports show between commands). The shapes of a response are the spec's (R22, R31, R177). -/
structure State.Inv (s : State) : Prop where
  ports_show_last : s.response = s.delivered.getLast?
  delivered_legal : ∀ r ∈ s.delivered, r.Legal

/-- A run is safe when no command of it has failed: every response delivered has `status = 0` (R183). -/
def State.NoErrorDelivered (s : State) : Prop := ∀ r ∈ s.delivered, r.status = 0#1

/-- No command has failed, and every request the caller still has to issue keeps its duties (R183, R205). -/
structure State.SafeRun (s : State) : Prop where
  no_error : s.NoErrorDelivered
  duties_pending : ∀ r ∈ s.pending, dutiesKept (decode r.cmd) r

end Machine

end Sys2Proof
end

