-- ==== Sys2Proof/Certificates/Slice0/Obligations.lean ====
section
/-! DEFINITION. The statements for the provers. Each says what the spec's rules say in terms of its own arithmetic (sums of
powers, big-endian numerals, multiplication modulo a power), not of the model's loops. -/

namespace Sys2Proof.Slice0

open Sys2Proof.Machine

/-! ### The instructions of each operation, with the width the spec gives each -/

/-- PACK with its width in bits (R85 to R88). -/
def packTable : List (Instr × Nat) := [(.packU8, 8), (.packU16, 16), (.packU32, 32), (.packU64, 64)]

/-- DECODE with its width in bytes (R120 to R127). -/
def decodeTable : List (Instr × Nat) :=
  [(.decodeU8, 1), (.decodeU16, 2), (.decodeU32, 4), (.decodeU64, 8),
   (.decodeI8, 1), (.decodeI16, 2), (.decodeI32, 4), (.decodeI64, 8)]

/-- ENCODE with its width in bytes (R128 to R135). -/
def encodeTable : List (Instr × Nat) :=
  [(.encodeU8, 1), (.encodeU16, 2), (.encodeU32, 4), (.encodeU64, 8),
   (.encodeI8, 1), (.encodeI16, 2), (.encodeI32, 4), (.encodeI64, 8)]

/-- SHL with its width in bits (R150 to R157). -/
def shlTable : List (Instr × Nat) :=
  [(.shlU8, 8), (.shlU16, 16), (.shlU32, 32), (.shlU64, 64),
   (.shlI8, 8), (.shlI16, 16), (.shlI32, 32), (.shlI64, 64)]

/-- The reserved words (R69). -/
def reservedTable : List Instr := [.reserved00100, .reserved00101, .reserved00110, .reserved00111]

/-- The DECODE and the ENCODE of one type, with its width in bytes. -/
def codecTable : List (Instr × Instr × Nat) :=
  [(.decodeU8, .encodeU8, 1), (.decodeU16, .encodeU16, 2), (.decodeU32, .encodeU32, 4), (.decodeU64, .encodeU64, 8),
   (.decodeI8, .encodeI8, 1), (.decodeI16, .encodeI16, 2), (.decodeI32, .encodeI32, 4), (.decodeI64, .encodeI64, 8)]

/-- The unsigned and the signed command of one operation and width. -/
def signTable : List (Instr × Instr) :=
  [(.decodeU8, .decodeI8), (.decodeU16, .decodeI16), (.decodeU32, .decodeI32), (.decodeU64, .decodeI64),
   (.encodeU8, .encodeI8), (.encodeU16, .encodeI16), (.encodeU32, .encodeI32), (.encodeU64, .encodeI64),
   (.shlU8, .shlI8), (.shlU16, .shlI16), (.shlU32, .shlI32), (.shlU64, .shlI64)]

def IsPack (i : Instr) : Prop := i ∈ packTable.map Prod.fst
def IsDecode (i : Instr) : Prop := i ∈ decodeTable.map Prod.fst
def IsEncode (i : Instr) : Prop := i ∈ encodeTable.map Prod.fst
def IsShl (i : Instr) : Prop := i ∈ shlTable.map Prod.fst

/-! ### States after a response, written field by field -/

/-- `s` after a response with the integer result `v`. -/
def afterValue (s : State) (v : PortWord) : State :=
  { s with response := some ⟨0#1, 0#2, some v, none⟩, delivered := s.delivered ++ [⟨0#1, 0#2, some v, none⟩] }

/-- `s` after a response with the buffer `b`. -/
def afterBytes (s : State) (b : List Byte) : State :=
  { s with response := some ⟨0#1, 0#2, none, some b⟩, delivered := s.delivered ++ [⟨0#1, 0#2, none, some b⟩] }

/-- `s` after the error with the cause code `c`. -/
def afterError (s : State) (c : BitVec 2) : State :=
  { s with response := some ⟨1#1, c, none, none⟩, delivered := s.delivered ++ [⟨1#1, c, none, none⟩] }

def withBits (s : State) (b : List Bit) : State := { s with req := { s.req with bitsIn := b } }
def withBytes (s : State) (b : List Byte) : State := { s with req := { s.req with bytesIn := b } }
def withShift (s : State) (v : PortWord) (c : Int) : State := { s with req := { s.req with valueIn := v, count := c } }
def withEncode (s : State) (v : PortWord) (L : Int) : State :=
  { s with req := { s.req with valueIn := v, totalBytes := L } }

/-! ### The spec's numbers -/

/-- `Σ { 2^idx : 0 <= idx < n and bits_in[idx] == One }` (R82). -/
def onesSum (bits : List Bit) : Nat :=
  ((List.range bits.length).map fun k => if bits[k]? = some Bit.one then 2 ^ k else 0).sum

/-- `Σ bytes[k] · 256^(len-1-k)`, the big-endian numeral of a buffer (R101). -/
def numeral (b : List Byte) : Nat :=
  ((List.range b.length).map fun k => (b.getD k 0#8).toNat * 256 ^ (b.length - 1 - k)).sum

/-- No sequence of `k` elements is over MAXLEN (R56). -/
def within (s : State) (k : Nat) : Prop := ∀ m, s.params.maxLen = some m → k ≤ m

/-- A PACK request with more bits than its width: its result is any value (R84). -/
def Oversize (r : Request) : Prop := ∃ p ∈ packTable, decode r.cmd = p.1 ∧ p.2 < r.bitsIn.length

end Sys2Proof.Slice0

open Sys2Proof Sys2Proof.Machine Sys2Proof.Slice0

/-! ### Reset, step, encoding -/

/-- R33, R200: after reset the response ports carry no value (a read of any of them is a model fault) and the parameters are
at the defaults of R7. That nothing is issued or delivered is how the model holds a run (assumption 1). -/
def Obligations.ResetLeavesPortsWithoutValue : Prop :=
  State.reset.response = none ∧ State.reset.pending = [] ∧ State.reset.delivered = [] ∧
    State.reset.params = ⟨64, 64, none⟩ ∧
    State.reset.readStatus = .fault (.portCarriesNoValue .status) ∧
    State.reset.readCause = .fault (.portCarriesNoValue .cause) ∧
    State.reset.readValueOut = .fault (.portCarriesNoValue .valueOut) ∧
    State.reset.readBytesOut = .fault (.portCarriesNoValue .bytesOut) ∧
    State.reset.readOutLen = .fault (.portCarriesNoValue .outLen)

/-- The invariant of a run holds at reset. R33: the response ports carry no value until the first response. The rest is the
model's: that a run is held as lists, empty at reset (assumption 1), and that the ports show the last response delivered
(assumption 7). -/
def Obligations.RunInvariantHoldsAtReset : Prop := State.reset.Inv

/-- Every step keeps the invariant of a run. From the spec: each response delivered is OK with cause 0 and exactly one result,
or InvalidArgument with a cause and no result (R22, R31, R177). The model's choices: the ports show the last response
delivered, also between commands, which R18 leaves open (assumption 7); the list of delivered responses (assumption 1); and
the step with nothing pending, which changes nothing (assumption 6). -/
def Obligations.EveryStepKeepsRunInvariant : Prop := ∀ s t : State, s.Inv → step s = .next t → t.Inv

/-- A step takes the next request of the caller's list, puts it on the request ports and runs the command its word decodes
to (R17, R18). With nothing pending the state stays as it is: the model's choice for an idle CORE (assumption 6). -/
def Obligations.StepRunsTheDecodedCommand : Prop :=
  ∀ s : State,
    (∀ r rest, s.pending = r :: rest → step s = exec (decode r.cmd) { s with req := r, pending := rest }) ∧
      (s.pending = [] → step s = .next s)

/-- A word placed for the next step runs as the first command, with the operands the request ports hold, before whatever
else is pending (assumption 1). -/
def Obligations.PlacedWordRunsNext : Prop :=
  ∀ (s : State) (w : Nat) (i : Instr), decodeTableWord 8 w = some i →
    step (s.withFetchWord 8 w) = exec i { s with req := { s.req with cmd := BitVec.ofNat 5 w } }

/-- R68, R69: every word decodes, the opcode map's word of an instruction decodes to it, and every word is the word of the
instruction it decodes to. A number of more than five bits is no command word. -/
def Obligations.DecodeAndEncodeAgree : Prop :=
  (∀ i : Instr, decode (encode i) = i) ∧ (∀ w : BitVec 5, encode (decode w) = w) ∧
    (∀ w : Nat, 32 ≤ w → decodeNat w = .error .widerThanFiveBits)

/-- R61, R62, R63: `op` is `cmd[4:3]`, `sgn` is `cmd[2]`, `wl` is `cmd[1:0]` with `w(T) = 1 << wl` and `W(T) = 8 << wl`. -/
def Obligations.CommandWordFieldsNameOperationAndType : Prop :=
  ∀ w : BitVec 5,
    ((decode w).fields.op = .pack ↔ w.toNat / 8 = 0) ∧ ((decode w).fields.op = .decode ↔ w.toNat / 8 = 1) ∧
      ((decode w).fields.op = .encode ↔ w.toNat / 8 = 2) ∧ ((decode w).fields.op = .shl ↔ w.toNat / 8 = 3) ∧
      (decode w).fields.type.signed = w.getLsbD 2 ∧
      (decode w).fields.type.bytes = 1 <<< (w.toNat % 4) ∧ (decode w).fields.type.bits = 8 <<< (w.toNat % 4)

/-- Words written out from the opcode map (R68), some of each operation, and a reserved one. -/
def Obligations.WordsOfTheOpcodeMapDecode : Prop :=
  decode 0b00000#5 = .packU8 ∧ decode 0b00011#5 = .packU64 ∧ decode 0b00101#5 = .reserved00101 ∧
    decode 0b01001#5 = .decodeU16 ∧ decode 0b01110#5 = .decodeI32 ∧
    decode 0b10010#5 = .encodeU32 ∧ decode 0b10100#5 = .encodeI8 ∧
    decode 0b11000#5 = .shlU8 ∧ decode 0b11111#5 = .shlI64

/-! ### PACK -/

/-- R80: for `n <= W(T)`, PACK sets bit `idx` of the result for each index that holds `One`, all other bits are 0, the
status is OK, and nothing else changes. -/
def Obligations.PackSetsTheBitOfEachOne : Prop :=
  ∀ p ∈ packTable, ∀ s : State, s.req.bitsIn.length ≤ p.2 → within s s.req.bitsIn.length →
    ∃ v : PortWord, exec p.1 s = .next (afterValue s v) ∧
      ∀ k : Nat, v.getLsbD k = decide (s.req.bitsIn[k]? = some Bit.one)

/-- R82: for `n <= W(T)` the result is the sum of `2^idx` over the indices that hold `One`, it is below `2^n`, and one
`Zero` more at the end changes nothing while it still fits. -/
def Obligations.PackIsTheSumOfPowers : Prop :=
  ∀ p ∈ packTable, ∀ (s : State) (bits : List Bit), s.params.maxLen = none → bits.length ≤ p.2 →
    ∃ v : PortWord, exec p.1 (withBits s bits) = .next (afterValue (withBits s bits) v) ∧
      v.toNat = onesSum bits ∧ v.toNat < 2 ^ bits.length ∧
      (bits.length + 1 ≤ p.2 →
        exec p.1 (withBits s (bits ++ [Bit.zero])) = .next (afterValue (withBits s (bits ++ [Bit.zero])) v))

/-- R84: for `n > W(T)`, whatever the elements hold, PACK succeeds with some `W(T)`-bit value, zeros above it. The value is
free; the draw counter, the model's own field, counts it (assumption 4). -/
def Obligations.OversizePackSucceedsWithAnyValue : Prop :=
  ∀ p ∈ packTable, ∀ s : State, p.2 < s.req.bitsIn.length → within s s.req.bitsIn.length →
    ∃ v : BitVec p.2, exec p.1 s = .next { afterValue s (v.setWidth 64) with draws := s.draws + 1 }

/-- R89: `pack([]) == 0`, `pack([One]) == 1`, `pack([Zero, One]) == 2`, at every width. -/
def Obligations.PackSourceProperties : Prop :=
  ∀ p ∈ packTable, ∀ s : State, s.params.maxLen = none →
    exec p.1 (withBits s []) = .next (afterValue (withBits s []) 0#64) ∧
      exec p.1 (withBits s [Bit.one]) = .next (afterValue (withBits s [Bit.one]) 1#64) ∧
      exec p.1 (withBits s [Bit.zero, Bit.one]) = .next (afterValue (withBits s [Bit.zero, Bit.one]) 2#64)

/-- L7: a sequence of at most 8 bits packs to the same value at every width. -/
def Obligations.PackWidthsAgreeOnShortSequences : Prop :=
  ∀ s : State, s.req.bitsIn.length ≤ 8 →
    exec .packU16 s = exec .packU8 s ∧ exec .packU32 s = exec .packU8 s ∧ exec .packU64 s = exec .packU8 s

/-! ### DECODE -/

/-- R101: DECODE gives the big-endian numeral of the whole buffer modulo `2^W`, succeeds for every length, and changes
nothing else. -/
def Obligations.DecodeIsTheBigEndianNumeral : Prop :=
  ∀ p ∈ decodeTable, ∀ s : State, within s s.req.bytesIn.length →
    ∃ v : PortWord, exec p.1 s = .next (afterValue s v) ∧ v.toNat = numeral s.req.bytesIn % 2 ^ (8 * p.2)

/-- R43, R100: byte lane `j` of the result is the byte `j` places from the end of the buffer for `j < w`, and zero where
the buffer has no such byte and in the lanes `w` and above. -/
def Obligations.DecodePutsTheLastBytesInTheLanes : Prop :=
  ∀ p ∈ decodeTable, ∀ s : State, within s s.req.bytesIn.length →
    ∃ v : PortWord, exec p.1 s = .next (afterValue s v) ∧
      ∀ j < 8, v.extractLsb' (8 * j) 8 =
        if j < p.2 ∧ j < s.req.bytesIn.length then s.req.bytesIn.getD (s.req.bytesIn.length - 1 - j) 0#8 else 0#8

/-- R104: a buffer longer than `w` decodes as its last `w` bytes, a shorter one as itself padded on the left with zero
bytes to length `w`. -/
def Obligations.DecodeDropsLeadingBytesAndPadsWithZeros : Prop :=
  ∀ p ∈ decodeTable, ∀ (s : State) (b : List Byte), s.params.maxLen = none →
    ∃ v : PortWord, exec p.1 (withBytes s b) = .next (afterValue (withBytes s b) v) ∧
      (p.2 < b.length →
        exec p.1 (withBytes s (b.drop (b.length - p.2))) = .next (afterValue (withBytes s (b.drop (b.length - p.2))) v)) ∧
      (b.length < p.2 →
        exec p.1 (withBytes s (List.replicate (p.2 - b.length) 0#8 ++ b)) =
          .next (afterValue (withBytes s (List.replicate (p.2 - b.length) 0#8 ++ b)) v))

/-! ### ENCODE -/

/-- R111: for `L >= 0`, byte `i` of the output is lane `L-1-i` of the operand where `L-1-i < w`, else 0; nothing else
changes. -/
def Obligations.EncodeLaysTheLanesBigEndian : Prop :=
  ∀ p ∈ encodeTable, ∀ s : State, ∀ L : Nat, s.req.totalBytes = L → within s L →
    exec p.1 s = .next (afterBytes s
      ((List.range L).map fun i =>
        if L - 1 - i < p.2 then s.req.valueIn.extractLsb' (8 * (L - 1 - i)) 8 else 0#8))

/-- R42, R111: the output has exactly `L` bytes and is the big-endian numeral of the operand modulo `256^min(w, L)`. -/
def Obligations.EncodeIsTheNumeralOfTheLowBytes : Prop :=
  ∀ p ∈ encodeTable, ∀ s : State, ∀ L : Nat, s.req.totalBytes = L → within s L →
    ∃ b : List Byte, exec p.1 s = .next (afterBytes s b) ∧ b.length = L ∧
      numeral b = s.req.valueIn.toNat % 256 ^ min p.2 L

/-- R113: `total_bytes < 0` ends with status 1 and cause NegativeTotalBytes, no buffer and no length, whatever `value_in`
holds; it is the only fault ENCODE can report. -/
def Obligations.EncodeOfNegativeLengthFaults : Prop :=
  ∀ p ∈ encodeTable, ∀ s : State,
    (s.req.totalBytes < 0 → exec p.1 s = .next (afterError s 0b01#2)) ∧
      (0 ≤ s.req.totalBytes → ∀ t r, exec p.1 s = .next t → t.response = some r → r.status = 0#1)

/-- R114: `total_bytes = 0` is legal and gives the empty sequence, of length 0. -/
def Obligations.EncodeOfZeroLengthIsEmpty : Prop :=
  ∀ p ∈ encodeTable, ∀ s : State, s.req.totalBytes = 0 → exec p.1 s = .next (afterBytes s [])

/-- R115: ENCODE with `L = w` undoes DECODE of `w` bytes, and DECODE undoes ENCODE: exactly for `L >= w`, modulo `256^L`
for `L < w`. -/
def Obligations.CodecRoundTrips : Prop :=
  ∀ q ∈ codecTable, ∀ s : State, s.params.maxLen = none →
    (∀ b : List Byte, b.length = q.2.2 →
      ∃ v : PortWord, exec q.1 (withBytes s b) = .next (afterValue (withBytes s b) v) ∧
        exec q.2.1 (withEncode s v q.2.2) = .next (afterBytes (withEncode s v q.2.2) b)) ∧
      (∀ (p : PortWord) (L : Nat), p.toNat < 2 ^ (8 * q.2.2) →
        ∃ (b : List Byte) (v : PortWord), exec q.2.1 (withEncode s p L) = .next (afterBytes (withEncode s p L) b) ∧
          exec q.1 (withBytes s b) = .next (afterValue (withBytes s b) v) ∧
          (q.2.2 ≤ L → v = p) ∧ (L < q.2.2 → v.toNat = p.toNat % 256 ^ L))

/-- R45 (law L3): a buffer written by ENCODE.T1 with length `L` and read by DECODE.T2 gives the pattern modulo
`2^(8·min(w(T1), w(T2), L))`. -/
def Obligations.MixedWidthViewKeepsTheLowLanes : Prop :=
  ∀ e ∈ encodeTable, ∀ d ∈ decodeTable, ∀ (s : State) (p : PortWord) (L : Nat), s.params.maxLen = none →
    ∃ (b : List Byte) (v : PortWord), exec e.1 (withEncode s p L) = .next (afterBytes (withEncode s p L) b) ∧
      exec d.1 (withBytes s b) = .next (afterValue (withBytes s b) v) ∧
      v.toNat = p.toNat % 2 ^ (8 * min (min e.2 d.2) L)

/-! ### SHL -/

/-- R141, R142: for every `count >= 0`, SHL gives `(p << count) mod 2^W`, and 0 for `count >= W`, with status OK and
nothing else changed. `p` is the low `W` bits of `value_in`. -/
def Obligations.ShlIsTheTruncatingShift : Prop :=
  ∀ p ∈ shlTable, ∀ s : State, 0 ≤ s.req.count →
    ∃ v : PortWord, exec p.1 s = .next (afterValue s v) ∧
      v.toNat = (s.req.valueIn.toNat % 2 ^ p.2) * 2 ^ s.req.count.toNat % 2 ^ p.2 ∧
      ((p.2 : Int) ≤ s.req.count → v = 0#64)

/-- R144: a zero operand gives 0 with status OK for every count, positive, zero, negative or huge. -/
def Obligations.ShlOfZeroIsZeroForAnyCount : Prop :=
  ∀ p ∈ shlTable, ∀ s : State, s.req.valueIn.toNat % 2 ^ p.2 = 0 → exec p.1 s = .next (afterValue s 0#64)

/-- R145: with `count < 0`, a nonzero operand ends with status 1 and cause NegativeCount and `value_out` carries no value; a
zero operand gives 0 and there is no fault. -/
def Obligations.ShlByNegativeCountFaults : Prop :=
  ∀ p ∈ shlTable, ∀ s : State, s.req.count < 0 →
    (s.req.valueIn.toNat % 2 ^ p.2 ≠ 0 → exec p.1 s = .next (afterError s 0b10#2)) ∧
      (s.req.valueIn.toNat % 2 ^ p.2 = 0 → exec p.1 s = .next (afterValue s 0#64))

/-- The numeric examples of R158: `shiftLeft(1_u8, 1) == 2`, `shiftLeft(1_u8, 7) == 128`, `shiftLeft(1_u8, 8) == 0`,
`shiftLeft(0xFF_u8, 1) == 0xFE`. -/
def Obligations.ShlSourceExamples : Prop :=
  ∀ s : State,
    exec .shlU8 (withShift s 1#64 1) = .next (afterValue (withShift s 1#64 1) 2#64) ∧
      exec .shlU8 (withShift s 1#64 7) = .next (afterValue (withShift s 1#64 7) 128#64) ∧
      exec .shlU8 (withShift s 1#64 8) = .next (afterValue (withShift s 1#64 8) 0#64) ∧
      exec .shlU8 (withShift s 0xFF#64 1) = .next (afterValue (withShift s 0xFF#64 1) 0xFE#64)

/-- Law L5: shifting by `a` and then by `b` is shifting by `a + b`, for `a, b >= 0`. -/
def Obligations.ShlComposes : Prop :=
  ∀ p ∈ shlTable, ∀ (s : State) (x : PortWord) (a b : Int), 0 ≤ a → 0 ≤ b →
    ∃ v u : PortWord, exec p.1 (withShift s x a) = .next (afterValue (withShift s x a) v) ∧
      exec p.1 (withShift s v b) = .next (afterValue (withShift s v b) u) ∧
      exec p.1 (withShift s x (a + b)) = .next (afterValue (withShift s x (a + b)) u)

/-- Law L8: SHL by `k` of PACK([One]) is PACK of `k` zeros and then `One`, for `k < W`, at each unsigned type. -/
def Obligations.ShlOfPackedOneIsPackedShifted : Prop :=
  ∀ q ∈ [(Instr.packU8, Instr.shlU8, 8), (.packU16, .shlU16, 16), (.packU32, .shlU32, 32), (.packU64, .shlU64, 64)],
    ∀ (s : State) (k : Nat), s.params.maxLen = none → k < q.2.2 →
      ∃ v u : PortWord, exec q.1 (withBits s [Bit.one]) = .next (afterValue (withBits s [Bit.one]) v) ∧
        exec q.2.1 (withShift s v k) = .next (afterValue (withShift s v k) u) ∧
        exec q.1 (withBits s (List.replicate k Bit.zero ++ [Bit.one])) =
          .next (afterValue (withBits s (List.replicate k Bit.zero ++ [Bit.one])) u)

/-- R146: for `0 <= count < W` the top bit of the result is bit `W - 1 - count` of the operand, and no bit at or above `W`
is set: the sign bit gets no special treatment. -/
def Obligations.ShlMovesIntoTheSignBit : Prop :=
  ∀ p ∈ shlTable, ∀ (s : State) (k : Nat), s.req.count = k → k < p.2 →
    ∃ v : PortWord, exec p.1 s = .next (afterValue s v) ∧
      v.getLsbD (p.2 - 1) = s.req.valueIn.getLsbD (p.2 - 1 - k) ∧ ∀ j, p.2 ≤ j → v.getLsbD j = false

/-- R102, R112, R146 (law L6): the signed command of a width does what the unsigned command does. -/
def Obligations.SignedCommandsComputeAsUnsigned : Prop := ∀ q ∈ signTable, ∀ s : State, exec q.2 s = exec q.1 s

/-- R11: the numeric value of a pattern lies in the range of its type, equals the pattern modulo `2^W`, and is 0 exactly
when the pattern is all zeros, in either reading. Two's complement is general knowledge (G1, assumption 10). -/
def Obligations.NumericValueReadsThePattern : Prop :=
  ∀ (T : IntType) (p : BitVec T.bits),
    T.numericValue p % 2 ^ T.bits = p.toNat ∧ (T.numericValue p = 0 ↔ p = 0#T.bits) ∧
      (T.signed = false → 0 ≤ T.numericValue p ∧ T.numericValue p < 2 ^ T.bits) ∧
      (T.signed = true → -(2 ^ (T.bits - 1)) ≤ T.numericValue p ∧ T.numericValue p < 2 ^ (T.bits - 1))

/-! ### Errors -/

/-- R174: the words `0b00100` to `0b00111`, and no others, are the reserved ones, and each ends with status 1 and cause
IllegalCommand; no operand is read, no result driven. -/
def Obligations.ReservedWordsReportIllegalCommand : Prop :=
  (∀ w : BitVec 5, decode w ∈ reservedTable ↔ 4 ≤ w.toNat ∧ w.toNat ≤ 7) ∧
    ∀ i ∈ reservedTable, ∀ s : State, exec i s = .next (afterError s 0b11#2)

/-- R171: the status is 0 with cause 0, or 1 with the one cause whose condition holds: NegativeTotalBytes from ENCODE with
`total_bytes < 0`, NegativeCount from SHL with a nonzero operand and `count < 0`, IllegalCommand from a reserved word. -/
def Obligations.StatusAndCauseSayWhichPreconditionFailed : Prop :=
  ∀ (i : Instr) (s t : State) (r : Response), exec i s = .next t → t.response = some r →
    (r.status = 0#1 ↔ r.cause = 0b00#2) ∧
      (r.cause = 0b01#2 ↔ IsEncode i ∧ s.req.totalBytes < 0) ∧
      (r.cause = 0b10#2 ↔ (∃ p ∈ shlTable, p.1 = i ∧ s.req.valueIn.toNat % 2 ^ p.2 ≠ 0) ∧ s.req.count < 0) ∧
      (r.cause = 0b11#2 ↔ i ∈ reservedTable)

/-- R183: oversized bit sequences, counts of the width or more, any buffer length and any `total_bytes >= 0` succeed. -/
def Obligations.DocumentedEdgeCasesSucceed : Prop :=
  ∀ (i : Instr) (s : State), s.params.maxLen = none →
    (IsPack i ∨ IsDecode i ∨ (IsEncode i ∧ 0 ≤ s.req.totalBytes) ∨ (IsShl i ∧ 0 ≤ s.req.count)) →
    ∃ t r, exec i s = .next t ∧ t.response = some r ∧ r.status = 0#1 ∧ r.cause = 0#2

/-! ### Which ports are read and driven -/

/-- R31, R177: with status 0, PACK, DECODE and SHL drive `value_out` and no buffer, and ENCODE drives a buffer of
`total_bytes` bytes and no value; with status 1 no result port is driven. -/
def Obligations.EachCommandDrivesItsPortsOnly : Prop :=
  ∀ (i : Instr) (s t : State) (r : Response), exec i s = .next t → t.response = some r →
    (r.status = 1#1 → r.valueOut = none ∧ r.bytesOut = none ∧ r.outLen = none) ∧
      (r.status = 0#1 → IsPack i ∨ IsDecode i ∨ IsShl i → r.valueOut.isSome ∧ r.bytesOut = none ∧ r.outLen = none) ∧
      (r.status = 0#1 → IsEncode i → r.valueOut = none ∧ ∃ n : Nat, r.outLen = some n ∧ s.req.totalBytes = n)

/-- R31, R176 (U10): a command's outcome is the same whatever the ports hold that it does not read, and whatever the bits
of `value_in` above its width hold. The cause of a reserved word depends on no port. For PACK with `n > W(T)` the rules give
the value no law (R84, excepted by R28): that two executions differing in unread ports alone draw the same value there is the
model's form of the draw, a function of width, bits and draw counter (assumption 4). -/
def Obligations.UnreadPortsAreIgnored : Prop :=
  ∀ (i : Instr) (s : State) (q : Request),
    (IsPack i → q.bitsIn = s.req.bitsIn) → (IsDecode i → q.bytesIn = s.req.bytesIn) →
    (∀ p ∈ encodeTable, p.1 = i →
      q.totalBytes = s.req.totalBytes ∧ q.valueIn.toNat % 2 ^ (8 * p.2) = s.req.valueIn.toNat % 2 ^ (8 * p.2)) →
    (∀ p ∈ shlTable, p.1 = i → q.count = s.req.count ∧ q.valueIn.toNat % 2 ^ p.2 = s.req.valueIn.toNat % 2 ^ p.2) →
    (∀ t, exec i s = .next t → exec i { s with req := q } = .next { t with req := q }) ∧
      (∀ e, exec i s = .refused e → exec i { s with req := q } = .refused e)

/-- R12: an integer result is a pattern of `W(T)` bits; the bits above are zero, for signed types and oversized PACK too. -/
def Obligations.IntegerResultsFitTheirWidth : Prop :=
  ∀ p ∈ packTable ++ decodeTable.map (fun d => (d.1, 8 * d.2)) ++ shlTable, ∀ (s t : State) (r : Response) (v : PortWord),
    exec p.1 s = .next t → t.response = some r → r.valueOut = some v → v.toNat < 2 ^ p.2

/-- U5, U6, U9: reading a response port that carries no value is a model fault: the integer port after ENCODE, the buffer
ports after PACK, DECODE and SHL, and every result port after an error. -/
def Obligations.ReadingAnUndrivenPortFaults : Prop :=
  ∀ (i : Instr) (s t : State), exec i s = .next t →
    (IsEncode i ∨ t.readStatus = .next 1#1 → t.readValueOut = .fault (.portCarriesNoValue .valueOut)) ∧
      (IsPack i ∨ IsDecode i ∨ IsShl i ∨ t.readStatus = .next 1#1 →
        t.readBytesOut = .fault (.portCarriesNoValue .bytesOut) ∧ t.readOutLen = .fault (.portCarriesNoValue .outLen))

/-! ### The whole machine -/

/-- The frame of every instruction: the request ports, the caller's list and the parameters stay, exactly one response is
delivered after the earlier ones, and the model's draw counter (assumption 4) moves for an oversized PACK alone (R20, R28, R32). -/
def Obligations.EveryInstructionOnlyDeliversAResponse : Prop :=
  ∀ (i : Instr) (s t : State), exec i s = .next t →
    t.req = s.req ∧ t.pending = s.pending ∧ t.params = s.params ∧
      (∃ r, t.response = some r ∧ t.delivered = s.delivered ++ [r]) ∧
      ((∀ p ∈ packTable, p.1 = i → s.req.bitsIn.length ≤ p.2) → t.draws = s.draws)

/-- R28, R178: two requests with equal fields give equal responses, whatever ran before them, except where the result is
any value (R84). -/
def Obligations.ResponsesDoNotDependOnHistory : Prop :=
  ∀ (s s' t : State) (r : Request) (rest rest' : List Request),
    s.pending = r :: rest → s'.pending = r :: rest' → s.params = s'.params → ¬ Oversize r → step s = .next t →
    ∃ t', step s' = .next t' ∧ t'.response = t.response

/-- R18, R28: the result of a run is the list of responses, each a function of its own request alone (requests whose result is
any value, R84, left aside; no MAXLEN set). The lists that hold a run are assumption 1; the clause on draws is about the
model's own counter (assumption 4). -/
def Obligations.RunIsTheListOfResponsesOfItsRequests : Prop :=
  ∃ f : Request → Response, ∀ s : State, s.params.maxLen = none → (∀ r ∈ s.pending, ¬ Oversize r) →
    ∃ t : State, Host.Core.run core s.pending.length s = .next t ∧
      t.delivered = s.delivered ++ s.pending.map f ∧ t.pending = [] ∧ t.draws = s.draws

/-- R50: two independent commands give the same responses in either order. -/
def Obligations.IndependentCommandsCommute : Prop :=
  ∀ (s : State) (a b : Request), s.params.maxLen = none → ¬ Oversize a → ¬ Oversize b →
    ∃ (x y : Response) (t u : State),
      Host.Core.run core 2 { s with pending := [a, b] } = .next t ∧ t.delivered = s.delivered ++ [x, y] ∧
        Host.Core.run core 2 { s with pending := [b, a] } = .next u ∧ u.delivered = s.delivered ++ [y, x]

/-- R207, R56: no step faults, and with MAXLEN unset every command runs to its response. That a step with nothing pending
answers a next state too, which the second clause says beyond the third, is the model's choice for an idle CORE
(assumption 6). -/
def Obligations.EveryCommandEnds : Prop :=
  (∀ (s : State) (f : Fault), step s ≠ .fault f) ∧
    (∀ s : State, s.params.maxLen = none → ∃ t, step s = .next t) ∧
    (∀ (s : State) (r : Request) (rest : List Request), s.params.maxLen = none → s.pending = r :: rest →
      ∃ t x, step s = .next t ∧ t.pending = rest ∧ t.delivered = s.delivered ++ [x])

/-- R56: a command is refused exactly when MAXLEN is set and the sequence it takes or returns is longer. That only the
sequence the command uses counts is the model's inference (assumption 5). -/
def Obligations.RefusedExactlyOverMaxLen : Prop :=
  ∀ (i : Instr) (s : State) (e : Refusal), exec i s = .refused e ↔
    e = .overMaxLen ∧ ∃ m, s.params.maxLen = some m ∧
      ((IsPack i ∧ m < s.req.bitsIn.length) ∨ (IsDecode i ∧ m < s.req.bytesIn.length) ∨
        (IsEncode i ∧ (m : Int) < s.req.totalBytes))

/-- R205, R182: a caller that keeps its duties gets status OK. That the result is no free value is said through the model's
own draw counter, which does not move (assumption 4). -/
def Obligations.DutiesKeptGiveOkAndNoFreeValue : Prop :=
  ∀ (i : Instr) (s : State), s.params.maxLen = none → dutiesKept i s.req →
    ∃ t r, exec i s = .next t ∧ t.response = some r ∧ r.status = 0#1 ∧ t.draws = s.draws

/-- R183, R205: a run of requests that keep the caller's duties, of any length, ends with every response delivered OK, from
every state in which no error has been delivered. The lists that hold a run are assumption 1; that no free value is drawn is
said through the model's own counter (assumption 4). -/
def Obligations.RunThatKeepsDutiesDeliversNoError : Prop :=
  ∀ s : State, s.params.maxLen = none → s.NoErrorDelivered → (∀ r ∈ s.pending, dutiesKept (decode r.cmd) r) →
    ∃ t : State, Host.Core.run core s.pending.length s = .next t ∧ t.NoErrorDelivered ∧
      t.delivered.length = s.delivered.length + s.pending.length ∧ t.draws = s.draws

/-- R183, R205: as long as every pending request keeps the caller's duties, no step delivers an error, and the requests
still pending go on keeping them, with MAXLEN set or not. The lists that hold a run are assumption 1; the step with nothing
pending is assumption 6. -/
def Obligations.EveryStepKeepsASafeRun : Prop := ∀ s t : State, s.SafeRun → step s = .next t → t.SafeRun

/-- A run that has not begun is safe at reset: nothing is delivered and nothing pending, as the model holds a run
(assumption 1). -/
def Obligations.SafeRunHoldsAtReset : Prop := State.reset.SafeRun

/-- R7, R22: for a request that the ports can carry, `out_len` fits its port of `LW` bits, and is within MAXLEN. -/
def Obligations.OutputLengthFitsItsPort : Prop :=
  ∀ (i : Instr) (s t : State) (r : Response) (n : Nat), s.req.wellFormed s.params = true →
    exec i s = .next t → t.response = some r → r.outLen = some n →
    fitsUnsigned s.params.lw n = true ∧ within s n

/-! ### The caller's lines -/

/-- R71, R141, R142: `SHL.T vd, vs, c` with a count that is not negative binds `vd` to the shifted low `W(T)` bits of `vs`, 0
for `c >= W(T)`, and keeps every other name and buffer. The model's choices (assumption 8): names are numbers, and a line is
issued before what is pending, so that the pending requests are as before. -/
def Obligations.ShlLineBindsTheShiftedValue : Prop :=
  ∀ (c : Caller) (s : State) (T : IntType) (vd : Nat) (vs : ValueSource) (x : PortWord) (k : Nat),
    c.value vs = some x →
    ∃ (c' : Caller) (t : State) (v : PortWord), c.runLine (.shl T vd vs k) s = .next (c', t) ∧
      c'.value (.held vd) = some v ∧ v.toNat = (x.toNat % 2 ^ T.bits) * 2 ^ k % 2 ^ T.bits ∧
      (∀ name, name ≠ vd → c'.value (.held name) = c.value (.held name)) ∧ c'.buffers = c.buffers ∧
      t.pending = s.pending

/-- R71, R82: `PACK.T vd, [e0, ...]` with at most `W(T)` elements, `T` unsigned, binds `vd` to the packed value. That names are
numbers and that a line is issued before what is pending is the model's choice (assumption 8). -/
def Obligations.PackLineBindsThePackedValue : Prop :=
  ∀ (c : Caller) (s : State) (T : IntType) (vd : Nat) (bits : List Bit), s.params.maxLen = none → T.signed = false →
    bits.length ≤ T.bits →
    ∃ (c' : Caller) (t : State) (v : PortWord), c.runLine (.pack T vd bits) s = .next (c', t) ∧
      c'.value (.held vd) = some v ∧ v.toNat = onesSum bits ∧ c'.buffers = c.buffers

/-- R71, R115: `ENCODE.T b, vs, w(T)` and then `DECODE.T v, b` binds `b` to `w(T)` bytes and `v` to the low `W(T)` bits of
`vs`. That names are numbers and that a line is issued before what is pending is the model's choice (assumption 8). -/
def Obligations.EncodeLineThenDecodeLineKeepsTheValue : Prop :=
  ∀ (c : Caller) (s : State) (T : IntType) (bd vd : Nat) (vs : ValueSource) (x : PortWord), s.params.maxLen = none →
    c.value vs = some x →
    ∃ (c1 c2 : Caller) (s1 s2 : State) (b : List Byte) (v : PortWord),
      c.runLine (.encode T bd vs T.bytes) s = .next (c1, s1) ∧ c1.buffer (.held bd) = some b ∧ b.length = T.bytes ∧
        c1.runLine (.decode T vd (.held bd)) s1 = .next (c2, s2) ∧ c2.value (.held vd) = some v ∧
        v.toNat = x.toNat % 2 ^ T.bits

/-- R71: a line whose command ends with status 1 binds nothing, and no line changes a name or buffer other than its
destination. That names are numbers is the model's choice (assumption 8). -/
def Obligations.FailedLineBindsNothing : Prop :=
  ∀ (c c' : Caller) (s t : State) (l : Line), c.runLine l s = .next (c', t) →
    (t.readStatus = .next 1#1 → c' = c) ∧
      (match l with
        | .pack _ vd _ | .decode _ vd _ | .shl _ vd _ _ =>
          c'.buffers = c.buffers ∧ ∀ name, name ≠ vd → c'.value (.held name) = c.value (.held name)
        | .encode _ bd _ _ =>
          c'.values = c.values ∧ ∀ name, name ≠ bd → c'.buffer (.held name) = c.buffer (.held name))
end

