-- ==== Sys2Proof/Laws/Algorithms.lean ====
section
/-! SUPPORT. What each algorithm of Machine/Ops.lean computes, bit by bit or byte by byte: one lemma per shared operation,
for later proofs to cite. -/

namespace Sys2Proof.Machine

/-! ### Bits and lanes -/

theorem getLsbD_setBit {W : Nat} (p : BitVec W) (k i : Nat) :
    (setBit p k).getLsbD i = (p.getLsbD i || (decide (i < W) && decide (i = k))) := by
  rw [setBit, BitVec.getLsbD_or, BitVec.getLsbD_twoPow]
  by_cases h : i = k
  · subst h; rfl
  · simp [h, Ne.symm h]

theorem getLsbD_clearBit {W : Nat} (p : BitVec W) (k i : Nat) :
    (clearBit p k).getLsbD i = (p.getLsbD i && !decide (i = k)) := by
  rw [clearBit, BitVec.getLsbD_and, BitVec.getLsbD_not, BitVec.getLsbD_twoPow]
  by_cases hi : i < W
  · by_cases h : i = k
    · subst h; simp [hi]
    · simp [h, Ne.symm h, hi]
  · simp [BitVec.getLsbD_of_ge p i (by omega)]

theorem getLsbD_lane {W : Nat} (p : BitVec W) (j i : Nat) :
    (lane p j).getLsbD i = (decide (i < 8) && p.getLsbD (8 * j + i)) := by
  simp [lane, BitVec.getLsbD_extractLsb']

theorem getLsbD_byteOnes (i : Nat) : (0xFF#8).getLsbD i = decide (i < 8) := by
  by_cases h : i < 8
  · revert h; revert i; decide
  · rw [BitVec.getLsbD_of_ge _ i (by omega)]; simp [h]

theorem getLsbD_setLane {W : Nat} (p : BitVec W) (j : Nat) (v : Byte) (i : Nat) :
    (setLane p j v).getLsbD i =
      if i < W ∧ 8 * j ≤ i ∧ i < 8 * j + 8 then v.getLsbD (i - 8 * j) else p.getLsbD i := by
  simp only [setLane, BitVec.getLsbD_or, BitVec.getLsbD_and, BitVec.getLsbD_not, BitVec.getLsbD_shiftLeft,
    BitVec.getLsbD_setWidth, getLsbD_byteOnes]
  by_cases hW : i < W
  · by_cases hlo : 8 * j ≤ i
    · have hv : i - 8 * j < W := by omega
      have hn : ¬ i < 8 * j := by omega
      by_cases hhi : i < 8 * j + 8
      · have h8 : i - 8 * j < 8 := by omega
        simp only [hW, hlo, hhi, hv, hn, h8]; simp
      · have h8 : ¬ i - 8 * j < 8 := by omega
        rw [BitVec.getLsbD_of_ge v _ (Nat.le_of_not_lt h8)]
        simp only [hW, hhi, hv, hn, h8]; simp
    · have hn : i < 8 * j := by omega
      simp only [hW, hlo, hn]; simp
  · rw [BitVec.getLsbD_of_ge p i (Nat.le_of_not_lt hW)]
    simp [hW]

theorem zext64_toNat {W : Nat} (h : W ≤ 64) (p : BitVec W) : (zext64 p).toNat = p.toNat := by
  simp only [zext64, BitVec.toNat_setWidth]
  exact Nat.mod_eq_of_lt (lt_of_lt_of_le p.isLt (Nat.pow_le_pow_right (by decide) h))

/-! ### PACK -/

theorem getLsbD_packLoop {W : Nat} (bits : List Bit) (idx : Nat) (acc : BitVec W) (i : Nat) :
    (packLoop bits idx acc).getLsbD i =
      (acc.getLsbD i || (decide (i < W) && decide (idx ≤ i) && decide (bits[i - idx]? = some .one))) := by
  induction bits generalizing idx acc with
  | nil => simp [packLoop]
  | cons b rest ih =>
    have shift (h : idx < i) : (b :: rest)[i - idx]? = rest[i - (idx + 1)]? := by
      obtain ⟨k, rfl⟩ : ∃ k, i = idx + 1 + k := ⟨i - (idx + 1), by omega⟩
      rw [show idx + 1 + k - idx = k + 1 by omega, show idx + 1 + k - (idx + 1) = k by omega]
      rfl
    rcases Nat.lt_trichotomy idx i with h | rfl | h
    · have h1 : idx ≤ i := by omega
      have h2 : idx + 1 ≤ i := by omega
      have h3 : i ≠ idx := by omega
      cases b <;> simp [packLoop, ih, getLsbD_setBit, shift h, h1, h2, h3]
    · cases b <;> simp [packLoop, ih, getLsbD_setBit]
    · have h1 : ¬ idx ≤ i := by omega
      have h2 : ¬ idx + 1 ≤ i := by omega
      have h3 : i ≠ idx := by omega
      cases b <;> simp [packLoop, ih, getLsbD_setBit, h1, h2, h3]

/-- PACK sets exactly the bits whose index holds `One`. -/
theorem getLsbD_packPattern (W : Nat) (bits : List Bit) (i : Nat) :
    (packPattern W bits).getLsbD i = (decide (i < W) && decide (bits[i]? = some .one)) := by
  simp [packPattern, getLsbD_packLoop]

/-! ### DECODE -/

/-- Every read of the window rule is inside the buffer, so `memRead`'s value outside is never used (R53). -/
theorem window_reads_inside (w : Nat) (buf : List Byte) (i : Nat) (hi : i < w) :
    (w ≤ buf.length → buf.length - w + i < buf.length) ∧
      (¬ w ≤ buf.length → ¬ i < w - buf.length → i - (w - buf.length) < buf.length) := by
  omega

/-- Byte `i` of the window is byte `len - w + i` of the buffer, or zero where there is none. -/
theorem windowByte_eq (w : Nat) (buf : List Byte) (i : Nat) :
    windowByte w buf i = if w ≤ buf.length + i then buf.getD (buf.length + i - w) 0#8 else 0#8 := by
  unfold windowByte memRead
  split
  · rw [if_pos (by omega)]; congr 1; omega
  · split
    · rw [if_neg (by omega)]
    · rw [if_pos (by omega)]; congr 1; omega

theorem memRead_window (w : Nat) (buf : List Byte) (i : Nat) (hi : i < w) :
    memRead (window w buf) i = windowByte w buf i := by
  simp [memRead, window, List.getD, hi]

theorem getLsbD_laneLoop (W w : Nat) (hW : W = 8 * w) (win : List Byte) (k : Nat) (hk : k ≤ w) (i : Nat) :
    (laneLoop W w win k).getLsbD i =
      (decide (i < W) && decide (w - k ≤ i / 8) && (memRead win (w - 1 - i / 8)).getLsbD (i % 8)) := by
  induction k with
  | zero =>
    simp only [laneLoop, BitVec.getLsbD_zero, Nat.sub_zero]
    by_cases h : i < W
    · simp [show ¬ w ≤ i / 8 by omega]
    · simp [h]
  | succ k ih =>
    rw [laneLoop, getLsbD_setLane, ih (by omega)]
    by_cases h : i < W ∧ 8 * (w - 1 - k) ≤ i ∧ i < 8 * (w - 1 - k) + 8
    · have h8 : i / 8 = w - 1 - k := by omega
      rw [if_pos h, h8, show w - 1 - (w - 1 - k) = k by omega, show i - 8 * (w - 1 - k) = i % 8 by omega]
      simp [h.1, show w - (k + 1) ≤ w - 1 - k by omega]
    · rw [if_neg h]
      by_cases hi : i < W
      · have : (w - k ≤ i / 8) = (w - (k + 1) ≤ i / 8) := by
          apply propext; omega
        simp [this]
      · simp [hi]

/-- Bit `i` of DECODE is bit `i % 8` of the byte `i / 8` places from the end of the buffer, or zero where there is none. -/
theorem getLsbD_decodePattern (w : Nat) (buf : List Byte) (i : Nat) :
    (decodePattern (8 * w) w buf).getLsbD i =
      (decide (i < 8 * w) && decide (i / 8 < buf.length) && (buf.getD (buf.length - 1 - i / 8) 0#8).getLsbD (i % 8)) := by
  rw [decodePattern, getLsbD_laneLoop _ _ rfl _ _ (le_refl w)]
  by_cases hi : i < 8 * w
  · rw [memRead_window _ _ _ (by omega), windowByte_eq]
    by_cases hl : i / 8 < buf.length
    · rw [if_pos (by omega), show buf.length + (w - 1 - i / 8) - w = buf.length - 1 - i / 8 by omega]
      simp [hi, hl]
    · rw [if_neg (by omega)]
      simp [hl]
  · simp [hi]

/-! ### ENCODE -/

@[simp] theorem length_encodeLoop {W : Nat} (p : BitVec W) (L k : Nat) : (encodeLoop p L k).length = L := by
  induction k with
  | zero => simp [encodeLoop]
  | succ k ih => simp [encodeLoop, memWrite, ih]

/-- ENCODE delivers exactly `L` bytes. -/
@[simp] theorem length_encodeBytes {W : Nat} (w : Nat) (p : BitVec W) (L : Nat) : (encodeBytes w p L).length = L :=
  length_encodeLoop p L _

theorem getElem?_encodeLoop {W : Nat} (p : BitVec W) (L k : Nat) (hk : k ≤ L) (i : Nat) (hi : i < L) :
    (encodeLoop p L k)[i]? = some (if L - 1 - i < k then lane p (L - 1 - i) else 0#8) := by
  induction k with
  | zero => simp [encodeLoop, hi]
  | succ k ih =>
    rw [encodeLoop, memWrite, List.getElem?_set]
    by_cases h : L - 1 - k = i
    · rw [if_pos h, if_pos (by simp; omega), if_pos (by omega), show L - 1 - i = k by omega]
    · have : L - 1 - i < k + 1 ↔ L - 1 - i < k := by omega
      rw [if_neg h, ih (by omega)]
      simp only [this]

/-- Byte `i` of ENCODE is lane `L-1-i` of the pattern, or zero where the pattern has no such lane. -/
theorem getElem?_encodeBytes {W : Nat} (w : Nat) (p : BitVec W) (L i : Nat) (hi : i < L) :
    (encodeBytes w p L)[i]? = some (if L - 1 - i < w then lane p (L - 1 - i) else 0#8) := by
  rw [encodeBytes, getElem?_encodeLoop _ _ _ (Nat.min_le_right w L) _ hi]
  have : L - 1 - i < min w L ↔ L - 1 - i < w := by omega
  simp only [this]

/-! ### SHL -/

theorem getLsbD_shlLoop {W : Nat} (p : BitVec W) (sc k : Nat) (i : Nat) :
    (shlLoop p sc k).getLsbD i =
      (decide (i < W) && decide (sc ≤ i) && decide (i - sc < k) && p.getLsbD (i - sc)) := by
  induction k with
  | zero => simp [shlLoop]
  | succ k ih =>
    rw [shlLoop]
    by_cases h : i = k + sc
    · subst h
      by_cases hW : k + sc < W
      · cases hp : p.getLsbD k
        · simp only [Bool.false_and]; rw [if_neg (by decide), ih]; simp [hp]
        · simp [hp, hW, getLsbD_setBit]
      · simp [hW, ih]
    · have step : i - sc < k + 1 ↔ i - sc < k ∨ i < sc := by omega
      have same : (shlLoop p sc k).getLsbD i =
          (decide (i < W) && decide (sc ≤ i) && decide (i - sc < k + 1) && p.getLsbD (i - sc)) := by
        rw [ih]
        by_cases hs : sc ≤ i
        · have hn : ¬ i < sc := by omega
          simp only [step, hn, or_false]
        · simp [hs]
      split
      · rw [getLsbD_setBit, same]; simp [h]
      · exact same

/-- The loop of R140 with the count `sc` is the shift that drops the bits pushed past the width. -/
theorem shlLoop_eq {W : Nat} (p : BitVec W) (sc : Nat) : shlLoop p sc W = p <<< sc := by
  apply BitVec.eq_of_getLsbD_eq
  intro i hi
  rw [getLsbD_shlLoop, BitVec.getLsbD_shiftLeft]
  by_cases hs : sc ≤ i
  · have h1 : i - sc < W := by omega
    have h2 : ¬ i < sc := by omega
    simp [hi, hs, h1, h2]
  · have h2 : i < sc := by omega
    simp [hs, h2]

/-- SHL with `count >= 0` is the truncating shift: the cap and the correction are never visible (R142). -/
theorem shlPattern_eq {W : Nat} (p : BitVec W) (count : Int) (h : 0 ≤ count) : shlPattern p count = p <<< count.toNat := by
  unfold shlPattern
  by_cases hp : p = 0#W
  · simp [hp]
  · rw [if_neg hp]
    have hW : 0 < W := by
      rcases Nat.eq_zero_or_pos W with rfl | h0
      · exact absurd (BitVec.eq_nil p) (by intro e; exact hp (by rw [e]; rfl))
      · exact h0
    simp only [shlLoop_eq]
    by_cases hc : (W : Int) ≤ count
    · have hmin : (min count ((W : Int) - 1)).toNat = W - 1 := by omega
      have hzero : p <<< count.toNat = 0#W := BitVec.shiftLeft_eq_zero (by omega)
      rw [hmin, hzero]
      split
      · apply BitVec.eq_of_getLsbD_eq
        intro i hi
        rw [getLsbD_clearBit, BitVec.getLsbD_shiftLeft]
        by_cases e : i = W - 1
        · simp [e]
        · have : i < W - 1 := by omega
          simp [this]
      · rename_i hn
        by_contra hne
        exact hn ⟨hne, hc⟩
    · have hmin : (min count ((W : Int) - 1)).toNat = count.toNat := by omega
      rw [hmin, if_neg (by intro x; exact hc x.2)]

/-- SHL of a zero operand is zero for every count, negative ones too (R144). -/
@[simp] theorem shlPattern_zero {W : Nat} (count : Int) : shlPattern (0#W) count = 0#W := by simp [shlPattern]

end Sys2Proof.Machine
end

