-- ==== Sys2Proof/Laws/State.lean ====
section
/-! SUPPORT. One lemma per field for each update of State, and the fields of the three shapes of a response. -/

namespace Sys2Proof.Machine

namespace State

@[simp] theorem respond_req (s : State) (r : Response) : (s.respond r).req = s.req := rfl
@[simp] theorem respond_response (s : State) (r : Response) : (s.respond r).response = some r := rfl
@[simp] theorem respond_pending (s : State) (r : Response) : (s.respond r).pending = s.pending := rfl
@[simp] theorem respond_delivered (s : State) (r : Response) : (s.respond r).delivered = s.delivered ++ [r] := rfl
@[simp] theorem respond_params (s : State) (r : Response) : (s.respond r).params = s.params := rfl
@[simp] theorem respond_draws (s : State) (r : Response) : (s.respond r).draws = s.draws := rfl

@[simp] theorem countDraw_req (s : State) : s.countDraw.req = s.req := rfl
@[simp] theorem countDraw_response (s : State) : s.countDraw.response = s.response := rfl
@[simp] theorem countDraw_pending (s : State) : s.countDraw.pending = s.pending := rfl
@[simp] theorem countDraw_delivered (s : State) : s.countDraw.delivered = s.delivered := rfl
@[simp] theorem countDraw_params (s : State) : s.countDraw.params = s.params := rfl
@[simp] theorem countDraw_draws (s : State) : s.countDraw.draws = s.draws + 1 := rfl

@[simp] theorem present_req (s : State) (r : Request) (l : List Request) : (s.present r l).req = r := rfl
@[simp] theorem present_response (s : State) (r : Request) (l : List Request) :
    (s.present r l).response = s.response := rfl
@[simp] theorem present_pending (s : State) (r : Request) (l : List Request) : (s.present r l).pending = l := rfl
@[simp] theorem present_delivered (s : State) (r : Request) (l : List Request) :
    (s.present r l).delivered = s.delivered := rfl
@[simp] theorem present_params (s : State) (r : Request) (l : List Request) : (s.present r l).params = s.params := rfl
@[simp] theorem present_draws (s : State) (r : Request) (l : List Request) : (s.present r l).draws = s.draws := rfl

theorem raise_eq (s : State) (c : Cause) : s.raise c = s.respond (Response.invalidArgument c) := rfl

end State

namespace Response

@[simp] theorem ofValue_status (v : PortWord) : (ofValue v).status = 0#1 := rfl
@[simp] theorem ofValue_cause (v : PortWord) : (ofValue v).cause = 0#2 := rfl
@[simp] theorem ofValue_valueOut (v : PortWord) : (ofValue v).valueOut = some v := rfl
@[simp] theorem ofValue_bytesOut (v : PortWord) : (ofValue v).bytesOut = none := rfl

@[simp] theorem ofBytes_status (b : List Byte) : (ofBytes b).status = 0#1 := rfl
@[simp] theorem ofBytes_cause (b : List Byte) : (ofBytes b).cause = 0#2 := rfl
@[simp] theorem ofBytes_valueOut (b : List Byte) : (ofBytes b).valueOut = none := rfl
@[simp] theorem ofBytes_bytesOut (b : List Byte) : (ofBytes b).bytesOut = some b := rfl

@[simp] theorem invalidArgument_status (c : Cause) : (invalidArgument c).status = 1#1 := rfl
@[simp] theorem invalidArgument_cause (c : Cause) : (invalidArgument c).cause = c.code := rfl
@[simp] theorem invalidArgument_valueOut (c : Cause) : (invalidArgument c).valueOut = none := rfl
@[simp] theorem invalidArgument_bytesOut (c : Cause) : (invalidArgument c).bytesOut = none := rfl

end Response

theorem Cause.code_ne_none (c : Cause) : c.code ≠ 0#2 := by cases c <;> decide

end Sys2Proof.Machine
end

