-- ==== Sys2Proof/Laws/Commands.lean ====
section
/-! SUPPORT. What the commands of each operation answer, and the one inversion lemma over all instructions: `exec` delivers
exactly one legal response and changes nothing else but the draw counter. -/

namespace Sys2Proof.Machine

@[simp] theorem Response.legal_ofValue (v : PortWord) : (Response.ofValue v).Legal := .inl ⟨rfl, rfl, by simp⟩
@[simp] theorem Response.legal_ofBytes (b : List Byte) : (Response.ofBytes b).Legal := .inl ⟨rfl, rfl, by simp⟩
@[simp] theorem Response.legal_invalidArgument (c : Cause) : (Response.invalidArgument c).Legal :=
  .inr ⟨rfl, c.code_ne_none, rfl, rfl⟩

/-! ### MAXLEN -/

theorem admits_of_unbounded {p : Params} (h : p.maxLen = none) (k : Nat) : p.admits k = true := by
  simp [Params.admits, h]

theorem needing_of_admits {s : State} {k : Nat} (h : s.params.admits k = true) (t : State) :
    needing k s t = .next t := by simp [needing, h]

theorem needing_of_not_admits {s : State} {k : Nat} (h : s.params.admits k = false) (t : State) :
    needing k s t = .refused .overMaxLen := by simp [needing, h]

theorem needing_cases (k : Nat) (s t : State) :
    (s.params.admits k = true ∧ needing k s t = .next t) ∨
      (s.params.admits k = false ∧ needing k s t = .refused .overMaxLen) := by
  cases h : s.params.admits k
  · exact .inr ⟨rfl, needing_of_not_admits h t⟩
  · exact .inl ⟨rfl, needing_of_admits h t⟩

/-! ### The command of each operation -/

theorem packCommand_fits (T : IntType) (s : State) (h : s.req.n ≤ T.bits) :
    packCommand T s = needing s.req.n s (s.respond (.ofValue (zext64 (packPattern T.bits s.req.bitsIn)))) := by
  rw [packCommand, if_pos h]

theorem packCommand_oversize (T : IntType) (s : State) (h : T.bits < s.req.n) :
    packCommand T s =
      needing s.req.n s
        (s.countDraw.respond (.ofValue (zext64 (Config.packOversize T.bits s.req.bitsIn s.draws)))) := by
  rw [packCommand, if_neg (by omega)]

theorem encodeCommand_negative (T : IntType) (s : State) (h : s.req.totalBytes < 0) :
    encodeCommand T s = .next (s.raise .negativeTotalBytes) := by rw [encodeCommand, if_pos h]

theorem encodeCommand_nonneg (T : IntType) (s : State) (h : 0 ≤ s.req.totalBytes) :
    encodeCommand T s =
      needing s.req.totalBytes.toNat s
        (s.respond (.ofBytes (encodeBytes T.bytes (s.req.operand T.bits) s.req.totalBytes.toNat))) := by
  rw [encodeCommand, if_neg (by omega)]

theorem shlCommand_negative (T : IntType) (s : State) (hp : s.req.operand T.bits ≠ 0) (h : s.req.count < 0) :
    shlCommand T s = .next (s.raise .negativeCount) := by rw [shlCommand, if_pos ⟨hp, h⟩]

theorem shlCommand_ok (T : IntType) (s : State) (h : s.req.operand T.bits = 0 ∨ 0 ≤ s.req.count) :
    shlCommand T s = .next (s.respond (.ofValue (zext64 (shlPattern (s.req.operand T.bits) s.req.count)))) := by
  rw [shlCommand, if_neg]
  rintro ⟨hp, hc⟩
  exact h.elim hp (by omega)

/-! ### Every instruction -/

/-- What `exec` leaves: one response more, on the ports and with the caller, and nothing else but the draw counter. -/
def Delivers (s t : State) (r : Response) : Prop :=
  t = { s with response := some r, delivered := s.delivered ++ [r], draws := t.draws } ∧
    (t.draws = s.draws ∨ t.draws = s.draws + 1)

theorem delivers_respond (s : State) (r : Response) : Delivers s (s.respond r) r := ⟨rfl, .inl rfl⟩
theorem delivers_countDraw (s : State) (r : Response) : Delivers s (s.countDraw.respond r) r := ⟨rfl, .inr rfl⟩

/-- The outcomes of an instruction: a legal response delivered, or the refusal of R56. -/
def Answers (s : State) (o : Host.Outcome State Fault Refusal) : Prop :=
  (∃ t r, o = .next t ∧ r.Legal ∧ Delivers s t r) ∨ (s.params.maxLen ≠ none ∧ o = .refused .overMaxLen)

theorem answers_respond (s : State) (r : Response) (h : r.Legal) : Answers s (.next (s.respond r)) :=
  .inl ⟨_, r, rfl, h, delivers_respond s r⟩

theorem answers_needing (k : Nat) (s t : State) (r : Response) (h : r.Legal) (d : Delivers s t r) :
    Answers s (needing k s t) := by
  rcases needing_cases k s t with ⟨-, e⟩ | ⟨ha, e⟩
  · exact .inl ⟨t, r, e, h, d⟩
  · refine .inr ⟨fun hn => ?_, e⟩
    rw [admits_of_unbounded hn] at ha
    exact Bool.noConfusion ha

theorem answers_pack (T : IntType) (s : State) : Answers s (packCommand T s) := by
  rcases Nat.lt_or_ge T.bits s.req.n with h | h
  · rw [packCommand_oversize T s h]; exact answers_needing _ _ _ _ (by simp) (delivers_countDraw s _)
  · rw [packCommand_fits T s h]; exact answers_needing _ _ _ _ (by simp) (delivers_respond s _)

theorem answers_decode (T : IntType) (s : State) : Answers s (decodeCommand T s) :=
  answers_needing _ _ _ _ (by simp) (delivers_respond s _)

theorem answers_encode (T : IntType) (s : State) : Answers s (encodeCommand T s) := by
  rcases Int.lt_or_le s.req.totalBytes 0 with h | h
  · rw [encodeCommand_negative T s h]; exact answers_respond s _ (by simp)
  · rw [encodeCommand_nonneg T s h]; exact answers_needing _ _ _ _ (by simp) (delivers_respond s _)

theorem answers_shl (T : IntType) (s : State) : Answers s (shlCommand T s) := by
  unfold shlCommand
  split
  · exact answers_respond s _ (by simp)
  · exact answers_respond s _ (by simp)

theorem answers_reserved (s : State) : Answers s (reservedCommand s) := answers_respond s _ (by simp)

/-- Every instruction in every state delivers one legal response and changes nothing else but the draw counter, or is
refused because MAXLEN is set. -/
theorem exec_answers (i : Instr) (s : State) : Answers s (exec i s) := by
  cases i
  case packU8 => exact answers_pack .u8 s
  case packU16 => exact answers_pack .u16 s
  case packU32 => exact answers_pack .u32 s
  case packU64 => exact answers_pack .u64 s
  case reserved00100 => exact answers_reserved s
  case reserved00101 => exact answers_reserved s
  case reserved00110 => exact answers_reserved s
  case reserved00111 => exact answers_reserved s
  case decodeU8 => exact answers_decode .u8 s
  case decodeU16 => exact answers_decode .u16 s
  case decodeU32 => exact answers_decode .u32 s
  case decodeU64 => exact answers_decode .u64 s
  case decodeI8 => exact answers_decode .i8 s
  case decodeI16 => exact answers_decode .i16 s
  case decodeI32 => exact answers_decode .i32 s
  case decodeI64 => exact answers_decode .i64 s
  case encodeU8 => exact answers_encode .u8 s
  case encodeU16 => exact answers_encode .u16 s
  case encodeU32 => exact answers_encode .u32 s
  case encodeU64 => exact answers_encode .u64 s
  case encodeI8 => exact answers_encode .i8 s
  case encodeI16 => exact answers_encode .i16 s
  case encodeI32 => exact answers_encode .i32 s
  case encodeI64 => exact answers_encode .i64 s
  case shlU8 => exact answers_shl .u8 s
  case shlU16 => exact answers_shl .u16 s
  case shlU32 => exact answers_shl .u32 s
  case shlU64 => exact answers_shl .u64 s
  case shlI8 => exact answers_shl .i8 s
  case shlI16 => exact answers_shl .i16 s
  case shlI32 => exact answers_shl .i32 s
  case shlI64 => exact answers_shl .i64 s

/-- If an instruction answers a next state, it delivered one legal response. -/
theorem exec_next_delivers {i : Instr} {s t : State} (h : exec i s = .next t) : ∃ r, r.Legal ∧ Delivers s t r := by
  rcases exec_answers i s with ⟨t', r, e, hr, d⟩ | ⟨-, e⟩
  · rw [h] at e
    cases e
    exact ⟨r, hr, d⟩
  · rw [h] at e; cases e

/-! ### The step -/

theorem step_idle {s : State} (h : s.pending = []) : step s = .next s := by rw [step, h]

theorem step_command {s : State} {r : Request} {rest : List Request} (h : s.pending = r :: rest) :
    step s = exec (decode r.cmd) (s.present r rest) := by rw [step, h]

/-- What a step that goes on can do: nothing when nothing is pending, or take the next request and deliver its response. -/
theorem step_next_cases {s t : State} (h : step s = .next t) :
    (s.pending = [] ∧ t = s) ∨
      ∃ q rest r, s.pending = q :: rest ∧ r.Legal ∧ Delivers (s.present q rest) t r := by
  rcases e : s.pending with - | ⟨q, rest⟩
  · rw [step_idle e] at h
    cases h
    exact .inl ⟨rfl, rfl⟩
  · rw [step_command e] at h
    obtain ⟨r, hr, d⟩ := exec_next_delivers h
    exact .inr ⟨q, rest, r, rfl, hr, d⟩

end Sys2Proof.Machine
end

