-- ==== Sys2Proof/Laws/Caller.lean ====
section
/-! SUPPORT. Issuing a line of a caller's program, and binding names. -/

namespace Sys2Proof.Machine

/-- A line that can be issued runs its command on its request, and binds from the response. -/
theorem Caller.runLine_of_next {c : Caller} {l : Line} {s t : State} {r : Request} (hr : c.request s.req l = some r)
    (h : exec (decode r.cmd) { s with req := r } = .next t) :
    c.runLine l s = .next ((t.response.map (c.bind l)).getD c, t) := by
  have e : step { s with pending := r :: s.pending } = .next t := h
  rw [Caller.runLine, hr]
  dsimp only
  rw [e]

@[simp] theorem lookup_bindName_self {α : Type} (k : Nat) (v : α) (held : List (Nat × α)) :
    (bindName k v held).lookup k = some v := by simp [bindName]

/-- Binding a name leaves every other name as it is. -/
theorem lookup_bindName_other {α : Type} {k n : Nat} (v : α) (held : List (Nat × α)) (h : n ≠ k) :
    (bindName k v held).lookup n = held.lookup n := by
  rw [bindName, List.lookup_cons, show (n == k) = false by simpa using h]
  dsimp only
  induction held with
  | nil => rfl
  | cons e rest ih =>
    obtain ⟨a, w⟩ := e
    by_cases ha : a = k
    · subst ha
      simp [ih, List.lookup_cons, show (n == a) = false by simpa using h]
    · simp only [List.filter_cons, show (a != k) = true by simpa using ha, if_true, List.lookup_cons, ih]

end Sys2Proof.Machine
end

