-- ==== Sys2Proof/Laws/PerInstr.lean ====
section
/-! SUPPORT. The family WordRoundTrip: the word of an instruction decodes to it, as a command word and as a row of the
opcode table (spec/30_encoding.md R68, R69). -/

namespace Sys2Proof.Laws.WordRoundTrip

/-- The word the opcode map gives `i` is read by the decoder as `i`. -/
def Statement (i : Instr) : Prop := decode (encode i) = i ∧ decodeTableWord 8 (encode i).toNat = some i

theorem packU8 : Statement .packU8 := ⟨rfl, rfl⟩
theorem packU16 : Statement .packU16 := ⟨rfl, rfl⟩
theorem packU32 : Statement .packU32 := ⟨rfl, rfl⟩
theorem packU64 : Statement .packU64 := ⟨rfl, rfl⟩
theorem reserved00100 : Statement .reserved00100 := ⟨rfl, rfl⟩
theorem reserved00101 : Statement .reserved00101 := ⟨rfl, rfl⟩
theorem reserved00110 : Statement .reserved00110 := ⟨rfl, rfl⟩
theorem reserved00111 : Statement .reserved00111 := ⟨rfl, rfl⟩
theorem decodeU8 : Statement .decodeU8 := ⟨rfl, rfl⟩
theorem decodeU16 : Statement .decodeU16 := ⟨rfl, rfl⟩
theorem decodeU32 : Statement .decodeU32 := ⟨rfl, rfl⟩
theorem decodeU64 : Statement .decodeU64 := ⟨rfl, rfl⟩
theorem decodeI8 : Statement .decodeI8 := ⟨rfl, rfl⟩
theorem decodeI16 : Statement .decodeI16 := ⟨rfl, rfl⟩
theorem decodeI32 : Statement .decodeI32 := ⟨rfl, rfl⟩
theorem decodeI64 : Statement .decodeI64 := ⟨rfl, rfl⟩
theorem encodeU8 : Statement .encodeU8 := ⟨rfl, rfl⟩
theorem encodeU16 : Statement .encodeU16 := ⟨rfl, rfl⟩
theorem encodeU32 : Statement .encodeU32 := ⟨rfl, rfl⟩
theorem encodeU64 : Statement .encodeU64 := ⟨rfl, rfl⟩
theorem encodeI8 : Statement .encodeI8 := ⟨rfl, rfl⟩
theorem encodeI16 : Statement .encodeI16 := ⟨rfl, rfl⟩
theorem encodeI32 : Statement .encodeI32 := ⟨rfl, rfl⟩
theorem encodeI64 : Statement .encodeI64 := ⟨rfl, rfl⟩
theorem shlU8 : Statement .shlU8 := ⟨rfl, rfl⟩
theorem shlU16 : Statement .shlU16 := ⟨rfl, rfl⟩
theorem shlU32 : Statement .shlU32 := ⟨rfl, rfl⟩
theorem shlU64 : Statement .shlU64 := ⟨rfl, rfl⟩
theorem shlI8 : Statement .shlI8 := ⟨rfl, rfl⟩
theorem shlI16 : Statement .shlI16 := ⟨rfl, rfl⟩
theorem shlI32 : Statement .shlI32 := ⟨rfl, rfl⟩
theorem shlI64 : Statement .shlI64 := ⟨rfl, rfl⟩

end Sys2Proof.Laws.WordRoundTrip
end

