-- ==== Sys2Proof/Laws/Run.lean ====
section
/-! SUPPORT. A run of the host's machine, step by step. -/

namespace Sys2Proof.Machine

theorem run_zero (s : State) : Host.Core.run core 0 s = .next s := rfl

/-- A run of `k + 1` steps of any machine is one step and then a run of `k` steps. -/
theorem run_succ_of_step (M : Host.Core) {s s' : M.State} (k : Nat) (h : M.step s = .next s') :
    M.run (k + 1) s = M.run k s' := by
  rw [Host.Core.run, h]

/-- The same of this machine. -/
theorem run_succ_of_next {s s' : State} (k : Nat) (h : step s = .next s') :
    Host.Core.run core (k + 1) s = Host.Core.run core k s' := run_succ_of_step core k h

end Sys2Proof.Machine
end

