-- ==== Sys2Proof/Tests/Slice0.lean ====
section
/-! SUPPORT. Tests. Expected values are those of spec/95_test_vectors.md (its section is named) or of a rule's own examples;
the witnesses at the end show that the hypotheses of each statement can be met together. -/

namespace Sys2Proof.Tests

open Sys2Proof.Machine Sys2Proof.Slice0

/-! ### Requests and responses -/

def ports : Request := Request.idle
def bitsReq (b : List Bit) : Request := { ports with bitsIn := b }
def bytesReq (b : List Byte) : Request := { ports with bytesIn := b }
def encodeReq (v : PortWord) (L : Int) : Request := { ports with valueIn := v, totalBytes := L }
def shlReq (v : PortWord) (c : Int) : Request := { ports with valueIn := v, count := c }

/-- Reset with a request on the ports. -/
def given (r : Request) : State := { State.reset with req := r }

/-- The same on an implementation with MAXLEN = `m`. -/
def givenMax (m : Nat) (r : Request) : State := { given r with params := { Params.default with maxLen := some m } }

/-- The response of one instruction to one request. -/
def answer (i : Instr) (r : Request) : Option Response :=
  match exec i (given r) with
  | .next t => t.response
  | .fault _ => none
  | .refused _ => none

def okValue (v : PortWord) : Option Response := some ⟨0#1, 0b00#2, some v, none⟩
def okBytes (b : List Byte) : Option Response := some ⟨0#1, 0b00#2, none, some b⟩
def error (c : BitVec 2) : Option Response := some ⟨1#1, c, none, none⟩

/-! ### WellFormed refuses an ill-formed term of each check -/

theorem smoke_pack_of_signed_type_is_illegal : (CmdFields.mk .pack .i8).legal = false := by decide
theorem smoke_pack_of_unsigned_type_is_legal : (CmdFields.mk .pack .u64).legal = true := by decide
theorem smoke_default_ports_carry_idle : Request.wellFormed Params.default ports = true := by decide
theorem smoke_count_beyond_cw : Request.wellFormed { cw := 8, lw := 8, maxLen := none } (shlReq 0 128) = false := by decide
theorem smoke_count_below_cw : Request.wellFormed { cw := 8, lw := 8, maxLen := none } (shlReq 0 (-129)) = false := by decide
theorem smoke_total_bytes_beyond_lw : Request.wellFormed { cw := 8, lw := 8, maxLen := none } (encodeReq 0 128) = false := by
  decide
theorem smoke_bits_longer_than_lw :
    Request.wellFormed { cw := 8, lw := 2, maxLen := none } (bitsReq (List.replicate 4 .one)) = false := by decide
theorem smoke_bytes_longer_than_lw :
    Request.wellFormed { cw := 8, lw := 2, maxLen := none } (bytesReq (List.replicate 4 0)) = false := by decide
theorem smoke_bits_over_maxlen :
    Request.wellFormed { cw := 8, lw := 8, maxLen := some 2 } (bitsReq (List.replicate 3 .one)) = false := by decide
theorem smoke_bytes_over_maxlen :
    Request.wellFormed { cw := 8, lw := 8, maxLen := some 2 } (bytesReq (List.replicate 3 0)) = false := by decide

/-! ### Decoding: the words of the opcode map, written out (R68) -/

theorem test_decode_pack :
    decode 0b00000#5 = .packU8 ∧
      decode 0b00001#5 = .packU16 ∧
      decode 0b00010#5 = .packU32 ∧
      decode 0b00011#5 = .packU64 := by decide

theorem test_decode_reserved :
    decode 0b00100#5 = .reserved00100 ∧
      decode 0b00101#5 = .reserved00101 ∧
      decode 0b00110#5 = .reserved00110 ∧
      decode 0b00111#5 = .reserved00111 := by decide

theorem test_decode_decode :
    decode 0b01000#5 = .decodeU8 ∧
      decode 0b01001#5 = .decodeU16 ∧
      decode 0b01010#5 = .decodeU32 ∧
      decode 0b01011#5 = .decodeU64 ∧
      decode 0b01100#5 = .decodeI8 ∧
      decode 0b01101#5 = .decodeI16 ∧
      decode 0b01110#5 = .decodeI32 ∧
      decode 0b01111#5 = .decodeI64 := by decide

theorem test_decode_encode :
    decode 0b10000#5 = .encodeU8 ∧
      decode 0b10001#5 = .encodeU16 ∧
      decode 0b10010#5 = .encodeU32 ∧
      decode 0b10011#5 = .encodeU64 ∧
      decode 0b10100#5 = .encodeI8 ∧
      decode 0b10101#5 = .encodeI16 ∧
      decode 0b10110#5 = .encodeI32 ∧
      decode 0b10111#5 = .encodeI64 := by decide

theorem test_decode_shl :
    decode 0b11000#5 = .shlU8 ∧
      decode 0b11001#5 = .shlU16 ∧
      decode 0b11010#5 = .shlU32 ∧
      decode 0b11011#5 = .shlU64 ∧
      decode 0b11100#5 = .shlI8 ∧
      decode 0b11101#5 = .shlI16 ∧
      decode 0b11110#5 = .shlI32 ∧
      decode 0b11111#5 = .shlI64 := by decide

theorem test_decode_rejects_six_bits : decodeNat 0b100000 = .error .widerThanFiveBits := by decide

/-! ### PACK (95 section 2.1; R85 to R88) -/

theorem test_packU8 :
    answer .packU8 (bitsReq []) = okValue 0x0#64 ∧
      answer .packU8 (bitsReq [.one, .zero, .one]) = okValue 0x5#64 ∧
      answer .packU8 (bitsReq [.zero, .zero, .zero, .zero, .zero, .zero, .zero, .one]) = okValue 0x80#64 ∧
      answer .packU8 (bitsReq (List.replicate 8 .one)) = okValue 0xff#64 := by decide

theorem test_packU16 :
    answer .packU16 (bitsReq [.zero, .zero, .zero, .zero, .zero, .zero, .zero, .zero, .one]) = okValue 0x100#64 ∧
      answer .packU16 (bitsReq ((List.replicate 15 .zero) ++ [.one])) = okValue 0x8000#64 ∧
      answer .packU16 (bitsReq (List.replicate 16 .one)) = okValue 0xffff#64 := by decide

theorem test_packU32 :
    answer .packU32 (bitsReq [.zero, .zero, .zero, .zero, .one, .one, .one, .one]) = okValue 0xf0#64 ∧
      answer .packU32 (bitsReq ([.one] ++ (List.replicate 30 .zero) ++ [.one])) = okValue 0x80000001#64 := by decide

theorem test_packU64 :
    answer .packU64 (bitsReq ((List.replicate 63 .zero) ++ [.one])) = okValue 0x8000000000000000#64 ∧
      answer .packU64 (bitsReq (List.replicate 64 .one)) = okValue 0xffffffffffffffff#64 := by decide

/-- `n = 9` is more than PACK.U8 takes: OK, any value (R84); the same sequence is legal for PACK.U16. -/
theorem test_pack_oversize_status :
    (answer .packU8 (bitsReq (List.replicate 9 .zero))).map (fun r => (r.status, r.cause, r.valueOut.isSome, r.bytesOut)) =
      some (0#1, 0b00#2, true, none) := by decide

/-! ### DECODE (95 section 2.2; R120 to R127) -/

theorem test_decodeU8 :
    answer .decodeU8 (bytesReq []) = okValue 0x0#64 ∧
      answer .decodeU8 (bytesReq [0xab]) = okValue 0xab#64 ∧
      answer .decodeU8 (bytesReq [0x12, 0x34]) = okValue 0x34#64 := by decide

theorem test_decodeU16 :
    answer .decodeU16 (bytesReq [0xff]) = okValue 0xff#64 ∧
      answer .decodeU16 (bytesReq [0x12, 0x34]) = okValue 0x1234#64 ∧
      answer .decodeU16 (bytesReq [0x01, 0x02, 0x03]) = okValue 0x203#64 := by decide

theorem test_decodeU32 :
    answer .decodeU32 (bytesReq [0xaa, 0xbb, 0xcc]) = okValue 0xaabbcc#64 ∧
      answer .decodeU32 (bytesReq [0xde, 0xad, 0xbe, 0xef]) = okValue 0xdeadbeef#64 ∧
      answer .decodeU32 (bytesReq [0x01, 0x02, 0x03, 0x04, 0x05]) = okValue 0x2030405#64 := by decide

theorem test_decodeU64 :
    answer .decodeU64 (bytesReq [0x80]) = okValue 0x80#64 ∧
      answer .decodeU64 (bytesReq [0x01, 0x23, 0x45, 0x67, 0x89, 0xab, 0xcd, 0xef]) = okValue 0x123456789abcdef#64 ∧
      answer .decodeU64 (bytesReq [0xff, 0x01, 0x23, 0x45, 0x67, 0x89, 0xab, 0xcd, 0xef]) = okValue 0x123456789abcdef#64 := by decide

theorem test_decodeI8 :
    answer .decodeI8 (bytesReq [0x12, 0xff]) = okValue 0xff#64 ∧
      answer .decodeI8 (bytesReq [0x80]) = okValue 0x80#64 := by decide

theorem test_decodeI16 :
    answer .decodeI16 (bytesReq [0xff]) = okValue 0xff#64 ∧
      answer .decodeI16 (bytesReq [0xff, 0xfe]) = okValue 0xfffe#64 := by decide

theorem test_decodeI32 :
    answer .decodeI32 (bytesReq [0xff, 0xff, 0xff]) = okValue 0xffffff#64 ∧
      answer .decodeI32 (bytesReq [0x80, 0x00, 0x00, 0x00]) = okValue 0x80000000#64 := by decide

theorem test_decodeI64 :
    answer .decodeI64 (bytesReq [0xff, 0xff, 0xff, 0xff, 0xff, 0xff, 0xff]) = okValue 0xffffffffffffff#64 ∧
      answer .decodeI64 (bytesReq [0x80, 0x00, 0x00, 0x00, 0x00, 0x00, 0x00, 0x00]) = okValue 0x8000000000000000#64 := by decide

/-! ### ENCODE (95 section 2.3; R128 to R135) -/

theorem test_encodeU8 :
    answer .encodeU8 (encodeReq 0xab 0) = okBytes [] ∧
      answer .encodeU8 (encodeReq 0xab 3) = okBytes [0x00, 0x00, 0xab] ∧
      answer .encodeU8 (encodeReq 0xffffffffffffffab 1) = okBytes [0xab] ∧
      answer .encodeU8 (encodeReq 0xab (-1)) = error 0b01#2 := by decide

theorem test_encodeU16 :
    answer .encodeU16 (encodeReq 0x1234 1) = okBytes [0x34] ∧
      answer .encodeU16 (encodeReq 0x1234 2) = okBytes [0x12, 0x34] ∧
      answer .encodeU16 (encodeReq 0x1234 4) = okBytes [0x00, 0x00, 0x12, 0x34] := by decide

theorem test_encodeU32 :
    answer .encodeU32 (encodeReq 0xdeadbeef 2) = okBytes [0xbe, 0xef] ∧
      answer .encodeU32 (encodeReq 0xdeadbeef 6) = okBytes [0x00, 0x00, 0xde, 0xad, 0xbe, 0xef] ∧
      answer .encodeU32 (encodeReq 0xdeadbeef (-5)) = error 0b01#2 := by decide

theorem test_encodeU64 :
    answer .encodeU64 (encodeReq 0x123456789abcdef 3) = okBytes [0xab, 0xcd, 0xef] ∧
      answer .encodeU64 (encodeReq 0x123456789abcdef 9) = okBytes [0x00, 0x01, 0x23, 0x45, 0x67, 0x89, 0xab, 0xcd, 0xef] := by decide

theorem test_encodeI8 :
    answer .encodeI8 (encodeReq 0x80 1) = okBytes [0x80] ∧
      answer .encodeI8 (encodeReq 0xff 2) = okBytes [0x00, 0xff] := by decide

theorem test_encodeI16 :
    answer .encodeI16 (encodeReq 0xfffe 1) = okBytes [0xfe] ∧
      answer .encodeI16 (encodeReq 0xfffe 4) = okBytes [0x00, 0x00, 0xff, 0xfe] := by decide

theorem test_encodeI32 :
    answer .encodeI32 (encodeReq 0x80000000 1) = okBytes [0x00] ∧
      answer .encodeI32 (encodeReq 0xffffffff 8) = okBytes [0x00, 0x00, 0x00, 0x00, 0xff, 0xff, 0xff, 0xff] := by decide

theorem test_encodeI64 :
    answer .encodeI64 (encodeReq 0xfffffffffffffffe 2) = okBytes [0xff, 0xfe] ∧
      answer .encodeI64 (encodeReq 0xffffffffffffffff 10) = okBytes [0x00, 0x00, 0xff, 0xff, 0xff, 0xff, 0xff, 0xff, 0xff, 0xff] ∧
      answer .encodeI64 (encodeReq 0x1 (-1)) = error 0b01#2 := by decide

/-! ### SHL (95 section 2.4; R150 to R157) -/

theorem test_shlU8 :
    answer .shlU8 (shlReq 0x1 7) = okValue 0x80#64 ∧
      answer .shlU8 (shlReq 0x1 8) = okValue 0x0#64 ∧
      answer .shlU8 (shlReq 0xa5 4) = okValue 0x50#64 ∧
      answer .shlU8 (shlReq 0xff 1) = okValue 0xfe#64 ∧
      answer .shlU8 (shlReq 0x1 9223372036854775807) = okValue 0x0#64 ∧
      answer .shlU8 (shlReq 0x0 (-1)) = okValue 0x0#64 ∧
      answer .shlU8 (shlReq 0x1 (-1)) = error 0b10#2 := by decide

theorem test_shlU16 :
    answer .shlU16 (shlReq 0x1234 4) = okValue 0x2340#64 ∧
      answer .shlU16 (shlReq 0x8001 1) = okValue 0x2#64 ∧
      answer .shlU16 (shlReq 0xffff 15) = okValue 0x8000#64 ∧
      answer .shlU16 (shlReq 0x1 16) = okValue 0x0#64 := by decide

theorem test_shlU32 :
    answer .shlU32 (shlReq 0xdeadbeef 8) = okValue 0xadbeef00#64 ∧
      answer .shlU32 (shlReq 0xffffffff 32) = okValue 0x0#64 ∧
      answer .shlU32 (shlReq 0xffffffff00000000 (-1)) = okValue 0x0#64 ∧
      answer .shlU32 (shlReq 0x1 (-1)) = error 0b10#2 := by decide

theorem test_shlU64 :
    answer .shlU64 (shlReq 0x123456789abcdef 4) = okValue 0x123456789abcdef0#64 ∧
      answer .shlU64 (shlReq 0x1 63) = okValue 0x8000000000000000#64 ∧
      answer .shlU64 (shlReq 0x1 64) = okValue 0x0#64 := by decide

theorem test_shlI8 :
    answer .shlI8 (shlReq 0x40 1) = okValue 0x80#64 ∧
      answer .shlI8 (shlReq 0x80 1) = okValue 0x0#64 ∧
      answer .shlI8 (shlReq 0x0 (-128)) = okValue 0x0#64 ∧
      answer .shlI8 (shlReq 0xff (-1)) = error 0b10#2 := by decide

theorem test_shlI16 :
    answer .shlI16 (shlReq 0xffff 8) = okValue 0xff00#64 ∧
      answer .shlI16 (shlReq 0x8000 1) = okValue 0x0#64 := by decide

theorem test_shlI32 :
    answer .shlI32 (shlReq 0x7fffffff 1) = okValue 0xfffffffe#64 ∧
      answer .shlI32 (shlReq 0x1 31) = okValue 0x80000000#64 := by decide

theorem test_shlI64 :
    answer .shlI64 (shlReq 0xffffffffffffffff 63) = okValue 0x8000000000000000#64 ∧
      answer .shlI64 (shlReq 0x0 (-5)) = okValue 0x0#64 := by decide

/-! ### Reserved words, ignored ports, the step, the caller (95 sections 2.5, 3) -/

theorem test_reserved_words :
    answer .reserved00100 ports = error 0b11#2 ∧ answer .reserved00101 ports = error 0b11#2 ∧
      answer .reserved00110 ports = error 0b11#2 ∧ answer .reserved00111 (bitsReq [.one]) = error 0b11#2 := by decide

theorem test_unread_ports_cannot_fault :
    answer .encodeU32 { ports with count := -9 } = okBytes [] ∧
      answer .shlU32 { ports with valueIn := 1, count := 3, totalBytes := -4 } = okValue 8#64 ∧
      answer .decodeU32 { ports with count := -1, totalBytes := -1 } = okValue 0#64 := by decide

theorem test_maxlen_refuses_the_longer_sequence :
    (match exec .decodeU8 (givenMax 2 (bytesReq [1, 2, 3])) with | .refused e => some e | _ => none) = some .overMaxLen ∧
      (match exec .decodeU8 (givenMax 3 (bytesReq [1, 2, 3])) with | .next t => t.response | _ => none) = okValue 3#64 ∧
      (match exec .encodeU8 (givenMax 2 (encodeReq 1 3)) with | .refused e => some e | _ => none) = some .overMaxLen := by
  decide

/-- P1 line 1: the word `0b01010` with the caller's buffer. -/
theorem test_step_runs_the_pending_request :
    (match step { State.reset with pending := [{ ports with cmd := 0b01010#5, bytesIn := [0xDE, 0xAD, 0xBE, 0xEF] }] } with
      | .next t => (t.response, t.pending) | _ => (none, [])) = (okValue 0xDEADBEEF#64, []) := by decide

theorem test_placed_word_runs_first_after_reset :
    (match step (State.reset.withFetchWord 8 0b00100) with | .next t => t.response | _ => none) = error 0b11#2 := by decide

def someCaller : Caller := { values := [], buffers := [(0, [0x01, 0x02, 0x03])] }

/-- P3 line 1: `DECODE.U16 v0, b0` binds `v0 = 0x0203`. -/
theorem test_decode_line_binds :
    (match someCaller.runLine (.decode .u16 0 (.held 0)) State.reset with
      | .next (c, _) => c.value (.held 0) | _ => none) = some 0x0203#64 := by decide

/-- P5 line 2: `SHL.U8 v0, 0x01, -1` binds nothing. -/
theorem test_failed_line_binds_nothing :
    (match someCaller.runLine (.shl .u8 0 (.literal 1) (-1)) State.reset with
      | .next (c, _) => some c | _ => none) = some someCaller := by decide

theorem test_unbound_name_or_signed_pack_cannot_be_issued :
    (match someCaller.runLine (.shl .u8 0 (.held 7) 1) State.reset with | .refused e => some e | _ => none) =
        some .lineNotIssuable ∧
      (match someCaller.runLine (.pack .i8 0 []) State.reset with | .refused e => some e | _ => none) =
        some .lineNotIssuable := by decide

/-- The wire values of a Bit (R30). -/
theorem test_bit_wire : Bit.zero.wire = 0#1 ∧ Bit.one.wire = 1#1 := by decide

/-- The numeric values 95 section 2.2 prints beside signed patterns. -/
theorem test_numeric_values :
    IntType.i8.numericValue 0x80#8 = -128 ∧ IntType.i16.numericValue 0x00FF#16 = 255 ∧
      IntType.i64.numericValue 0xFFFFFFFFFFFFFFFF#64 = -1 ∧ IntType.u8.numericValue 0xAB#8 = 171 := by decide

/-! ### Witnesses: the hypotheses of each statement, met together -/

theorem within_given (r : Request) (k : Nat) : within (given r) k := by intro m h; cases h

theorem within_givenMax {m k : Nat} (r : Request) (h : k ≤ m) : within (givenMax m r) k := by
  intro m' e
  cases e
  exact h

def full8 : Request := bitsReq (List.replicate 8 .one)
def nine : Request := { bitsReq (List.replicate 9 .zero) with cmd := 0b00001#5 }
def queued (r : Request) : State := { State.reset with pending := [r] }

theorem witness_EveryStepKeepsRunInvariant : (queued full8).Inv ∧ ∃ t, step (queued full8) = .next t :=
  ⟨⟨rfl, by intro r hr; cases hr⟩, _, rfl⟩

theorem witness_StepRunsTheDecodedCommand :
    (queued full8).pending = full8 :: [] ∧ State.reset.pending = [] := ⟨rfl, rfl⟩

theorem witness_PlacedWordRunsNext : decodeTableWord 8 31 = some .shlI64 ∧ decodeTableWord 8 0 = some .packU8 := by decide

theorem witness_DecodeAndEncodeAgree : 32 ≤ 32 := le_refl _

/-- The boundary `n = W`, with MAXLEN at the boundary too. -/
theorem witness_PackSetsTheBitOfEachOne :
    (Instr.packU8, 8) ∈ packTable ∧ (givenMax 8 full8).req.bitsIn.length ≤ 8 ∧
      within (givenMax 8 full8) (givenMax 8 full8).req.bitsIn.length :=
  ⟨by decide, by decide, within_givenMax _ (by decide)⟩

/-- `n = W` for the sum, `n = W - 1` for the clause with one `Zero` more. -/
theorem witness_PackIsTheSumOfPowers :
    (Instr.packU8, 8) ∈ packTable ∧ State.reset.params.maxLen = none ∧ full8.bitsIn.length ≤ 8 ∧
      (List.replicate 7 Bit.one).length ≤ 8 ∧ (List.replicate 7 Bit.one).length + 1 ≤ 8 := by decide

theorem witness_OversizePackSucceedsWithAnyValue :
    (Instr.packU8, 8) ∈ packTable ∧ 8 < (given nine).req.bitsIn.length ∧
      within (given nine) (given nine).req.bitsIn.length :=
  ⟨by decide, by decide, within_given _ _⟩

theorem witness_PackSourceProperties : (Instr.packU64, 64) ∈ packTable ∧ State.reset.params.maxLen = none := by decide

theorem witness_PackWidthsAgreeOnShortSequences : (given full8).req.bitsIn.length ≤ 8 := by decide

theorem witness_DecodeIsTheBigEndianNumeral :
    (Instr.decodeI16, 2) ∈ decodeTable ∧ within (givenMax 3 (bytesReq [1, 2, 3])) (bytesReq [1, 2, 3]).bytesIn.length :=
  ⟨by decide, within_givenMax _ (by decide)⟩

/-- Lanes 0 and 7, with a buffer longer and one shorter than the type. -/
theorem witness_DecodePutsTheLastBytesInTheLanes :
    (Instr.decodeU64, 8) ∈ decodeTable ∧ within (given (bytesReq [1])) 1 ∧ (0 < 8 ∧ 7 < 8) ∧
      (0 < 8 ∧ 0 < (bytesReq [1]).bytesIn.length) ∧ ¬ (7 < 8 ∧ 7 < (bytesReq [1]).bytesIn.length) :=
  ⟨by decide, within_given _ _, by decide, by decide, by decide⟩

/-- One byte too many, one too few. -/
theorem witness_DecodeDropsLeadingBytesAndPadsWithZeros :
    (Instr.decodeU16, 2) ∈ decodeTable ∧ State.reset.params.maxLen = none ∧ 2 < ([1, 2, 3] : List Byte).length ∧
      ([1] : List Byte).length < 2 := by decide

theorem witness_EncodeLaysTheLanesBigEndian :
    (Instr.encodeI32, 4) ∈ encodeTable ∧ (given (encodeReq 7 0)).req.totalBytes = (0 : Nat) ∧
      within (given (encodeReq 7 0)) 0 ∧ (givenMax 5 (encodeReq 7 5)).req.totalBytes = (5 : Nat) ∧
      within (givenMax 5 (encodeReq 7 5)) 5 :=
  ⟨by decide, rfl, within_given _ _, rfl, within_givenMax _ (by decide)⟩

theorem witness_EncodeIsTheNumeralOfTheLowBytes :
    (Instr.encodeU8, 1) ∈ encodeTable ∧ (given (encodeReq 7 1)).req.totalBytes = (1 : Nat) ∧
      within (given (encodeReq 7 1)) 1 := ⟨by decide, rfl, within_given _ _⟩

theorem witness_EncodeOfNegativeLengthFaults :
    (Instr.encodeU8, 1) ∈ encodeTable ∧ (given (encodeReq 7 (-1))).req.totalBytes < 0 ∧
      0 ≤ (given (encodeReq 7 0)).req.totalBytes ∧
      ∃ t r, exec .encodeU8 (given (encodeReq 7 0)) = .next t ∧ t.response = some r :=
  ⟨by decide, by decide, by decide, _, _, rfl, rfl⟩

theorem witness_EncodeOfZeroLengthIsEmpty :
    (Instr.encodeI64, 8) ∈ encodeTable ∧ (given (encodeReq 7 0)).req.totalBytes = 0 := by decide

/-- A buffer of `w` bytes; `L = w` and `L = w - 1` for the largest pattern. -/
theorem witness_CodecRoundTrips :
    (Instr.decodeU16, Instr.encodeU16, 2) ∈ codecTable ∧ State.reset.params.maxLen = none ∧
      ([0, 255] : List Byte).length = 2 ∧ (0xFFFF#64).toNat < 2 ^ (8 * 2) ∧ 2 ≤ 2 ∧ 1 < 2 := by decide

theorem witness_MixedWidthViewKeepsTheLowLanes :
    (Instr.encodeU32, 4) ∈ encodeTable ∧ (Instr.decodeU16, 2) ∈ decodeTable ∧ State.reset.params.maxLen = none := by decide

/-- `count = 0` and `count = W`. -/
theorem witness_ShlIsTheTruncatingShift :
    (Instr.shlU8, 8) ∈ shlTable ∧ 0 ≤ (given (shlReq 1 0)).req.count ∧ 0 ≤ (given (shlReq 1 8)).req.count ∧
      ((8 : Nat) : Int) ≤ (given (shlReq 1 8)).req.count := by decide

/-- The operand is zero although a bit above the width is set. -/
theorem witness_ShlOfZeroIsZeroForAnyCount :
    (Instr.shlI8, 8) ∈ shlTable ∧ (given (shlReq 0x100 (-1))).req.valueIn.toNat % 2 ^ 8 = 0 := by decide

theorem witness_ShlByNegativeCountFaults :
    (Instr.shlI8, 8) ∈ shlTable ∧ (given (shlReq 0x80 (-1))).req.count < 0 ∧
      (given (shlReq 0x80 (-1))).req.valueIn.toNat % 2 ^ 8 ≠ 0 ∧
      (given (shlReq 0x100 (-1))).req.count < 0 ∧ (given (shlReq 0x100 (-1))).req.valueIn.toNat % 2 ^ 8 = 0 := by decide

theorem witness_ShlComposes : (Instr.shlU16, 16) ∈ shlTable ∧ (0 : Int) ≤ 0 ∧ (0 : Int) ≤ 16 := by decide

theorem witness_ShlOfPackedOneIsPackedShifted : State.reset.params.maxLen = none ∧ 7 < 8 := by decide

theorem witness_ShlMovesIntoTheSignBit :
    (Instr.shlI8, 8) ∈ shlTable ∧ (given (shlReq 1 7)).req.count = (7 : Nat) ∧ 7 < 8 := by decide

theorem witness_SignedCommandsComputeAsUnsigned : (Instr.shlU8, Instr.shlI8) ∈ signTable := by decide

theorem witness_NumericValueReadsThePattern : IntType.u8.signed = false ∧ IntType.i8.signed = true := by decide

theorem witness_ReservedWordsReportIllegalCommand :
    Instr.reserved00100 ∈ reservedTable ∧ Instr.reserved00111 ∈ reservedTable := by decide

/-- Each of the four status and cause codes is answered by some request. -/
theorem witness_StatusAndCauseSayWhichPreconditionFailed :
    (∃ t r, exec .packU8 (given ports) = .next t ∧ t.response = some r ∧ r.cause = 0b00#2) ∧
      (∃ t r, exec .encodeU8 (given (encodeReq 0 (-1))) = .next t ∧ t.response = some r ∧ r.cause = 0b01#2) ∧
      (∃ t r, exec .shlU8 (given (shlReq 1 (-1))) = .next t ∧ t.response = some r ∧ r.cause = 0b10#2) ∧
      (∃ t r, exec .reserved00100 (given ports) = .next t ∧ t.response = some r ∧ r.cause = 0b11#2) :=
  ⟨⟨_, _, rfl, rfl, rfl⟩, ⟨_, _, rfl, rfl, rfl⟩, ⟨_, _, rfl, rfl, rfl⟩, ⟨_, _, rfl, rfl, rfl⟩⟩

theorem witness_DocumentedEdgeCasesSucceed :
    State.reset.params.maxLen = none ∧ .packU8 ∈ packTable.map Prod.fst ∧ .decodeU8 ∈ decodeTable.map Prod.fst ∧
      (.encodeU8 ∈ encodeTable.map Prod.fst ∧ 0 ≤ (given (encodeReq 0 0)).req.totalBytes) ∧
      (.shlU8 ∈ shlTable.map Prod.fst ∧ 0 ≤ (given (shlReq 1 8)).req.count) := by decide

theorem witness_EachCommandDrivesItsPortsOnly :
    (∃ t r, exec .shlU8 (given (shlReq 1 (-1))) = .next t ∧ t.response = some r ∧ r.status = 1#1) ∧
      (∃ t r, exec .shlU8 (given (shlReq 1 1)) = .next t ∧ t.response = some r ∧ r.status = 0#1) ∧
      (∃ t r, exec .encodeU8 (given (encodeReq 1 1)) = .next t ∧ t.response = some r ∧ r.status = 0#1) ∧
      .shlU8 ∈ shlTable.map Prod.fst ∧ .encodeU8 ∈ encodeTable.map Prod.fst :=
  ⟨⟨_, _, rfl, rfl, rfl⟩, ⟨_, _, rfl, rfl, rfl⟩, ⟨_, _, rfl, rfl, rfl⟩, by decide, by decide⟩

/-- Ports that SHL.U8 does not read differ, and so do the bits of `value_in` above its width. -/
def otherPorts : Request :=
  { cmd := 0b11111#5, bitsIn := [.one], bytesIn := [1], valueIn := 0xF01#64, count := 1, totalBytes := -1 }

theorem witness_UnreadPortsAreIgnored :
    (IsPack .shlU8 → otherPorts.bitsIn = (given (shlReq 1 1)).req.bitsIn) ∧
      (IsDecode .shlU8 → otherPorts.bytesIn = (given (shlReq 1 1)).req.bytesIn) ∧
      (∀ p ∈ encodeTable, p.1 = .shlU8 → otherPorts.totalBytes = (given (shlReq 1 1)).req.totalBytes ∧
        otherPorts.valueIn.toNat % 2 ^ (8 * p.2) = (given (shlReq 1 1)).req.valueIn.toNat % 2 ^ (8 * p.2)) ∧
      (∀ p ∈ shlTable, p.1 = .shlU8 → otherPorts.count = (given (shlReq 1 1)).req.count ∧
        otherPorts.valueIn.toNat % 2 ^ p.2 = (given (shlReq 1 1)).req.valueIn.toNat % 2 ^ p.2) ∧
      (∃ t, exec .shlU8 (given (shlReq 1 1)) = .next t) ∧
      ∃ e, exec .decodeU8 (givenMax 0 (bytesReq [1])) = .refused e :=
  ⟨by unfold IsPack; decide, by unfold IsDecode; decide, by decide, by decide, ⟨_, rfl⟩, _, rfl⟩

theorem witness_IntegerResultsFitTheirWidth :
    (Instr.decodeI8, 8) ∈ packTable ++ decodeTable.map (fun d => (d.1, 8 * d.2)) ++ shlTable ∧
      ∃ t r v, exec .decodeI8 (given (bytesReq [0xFF])) = .next t ∧ t.response = some r ∧ r.valueOut = some v :=
  ⟨by decide, _, _, _, rfl, rfl, rfl⟩

theorem witness_ReadingAnUndrivenPortFaults :
    (∃ t, exec .encodeU8 (given (encodeReq 1 1)) = .next t) ∧ .encodeU8 ∈ encodeTable.map Prod.fst ∧
      (∃ t, exec .shlU8 (given (shlReq 1 (-1))) = .next t ∧ t.readStatus = .next 1#1) ∧
      .shlU8 ∈ shlTable.map Prod.fst := ⟨⟨_, rfl⟩, by decide, ⟨_, rfl, rfl⟩, by decide⟩

theorem witness_EveryInstructionOnlyDeliversAResponse :
    (∃ t, exec .packU8 (given full8) = .next t) ∧
      ∀ p ∈ packTable, p.1 = .packU8 → (given full8).req.bitsIn.length ≤ p.2 := ⟨⟨_, rfl⟩, by decide⟩

theorem not_oversize_shl : ¬ Oversize { shlReq 1 1 with cmd := 0b11000#5 } := by unfold Oversize; decide

/-- Two states with different histories, draws and later requests. -/
theorem witness_ResponsesDoNotDependOnHistory :
    ∃ s s' r rest rest', State.pending s = r :: rest ∧ State.pending s' = r :: rest' ∧ s.params = s'.params ∧
      s.delivered ≠ s'.delivered ∧ ¬ Oversize r ∧ ∃ t, step s = .next t :=
  ⟨queued { shlReq 1 1 with cmd := 0b11000#5 },
    { queued { shlReq 1 1 with cmd := 0b11000#5 } with delivered := [⟨1#1, 0b11#2, none, none⟩], draws := 3 }, _, _, _,
    rfl, rfl, rfl, by decide, not_oversize_shl, _, rfl⟩

theorem witness_RunIsTheListOfResponsesOfItsRequests :
    State.reset.params.maxLen = none ∧
      ∀ r ∈ (queued { shlReq 1 1 with cmd := 0b11000#5 }).pending, ¬ Oversize r :=
  ⟨rfl, by intro r hr; rw [List.mem_singleton.1 hr]; exact not_oversize_shl⟩

theorem witness_IndependentCommandsCommute :
    State.reset.params.maxLen = none ∧ ¬ Oversize ports ∧ ¬ Oversize { shlReq 1 1 with cmd := 0b11000#5 } :=
  ⟨rfl, by unfold Oversize; decide, not_oversize_shl⟩

theorem witness_EveryCommandEnds : (queued nine).params.maxLen = none ∧ (queued nine).pending = nine :: [] := ⟨rfl, rfl⟩

/-- MAXLEN one below the need: refused, in each of the three cases. -/
theorem witness_RefusedExactlyOverMaxLen :
    (.packU8 ∈ packTable.map Prod.fst ∧ 0 < (givenMax 0 (bitsReq [.one])).req.bitsIn.length) ∧
      (.decodeU8 ∈ decodeTable.map Prod.fst ∧ 0 < (givenMax 0 (bytesReq [1])).req.bytesIn.length) ∧
      (.encodeU8 ∈ encodeTable.map Prod.fst ∧ ((0 : Nat) : Int) < (givenMax 0 (encodeReq 1 1)).req.totalBytes) := by decide

theorem witness_DutiesKeptGiveOkAndNoFreeValue :
    State.reset.params.maxLen = none ∧ dutiesKept .packU8 full8 ∧ dutiesKept .decodeU8 ports ∧
      dutiesKept .encodeU8 (encodeReq 1 0) ∧ dutiesKept .shlU8 (shlReq 0 (-1)) :=
  ⟨rfl, ⟨rfl, by decide⟩, trivial, le_refl (0 : Int), .inl rfl⟩

theorem witness_RunThatKeepsDutiesDeliversNoError :
    (queued full8).params.maxLen = none ∧ (queued full8).NoErrorDelivered ∧
      ∀ r ∈ (queued full8).pending, dutiesKept (decode r.cmd) r :=
  ⟨rfl, (by intro r hr; cases hr), by intro r hr; rw [List.mem_singleton.1 hr]; exact ⟨rfl, by decide⟩⟩

theorem witness_EveryStepKeepsASafeRun : (queued full8).SafeRun ∧ ∃ t, step (queued full8) = .next t :=
  ⟨⟨witness_RunThatKeepsDutiesDeliversNoError.2.1, witness_RunThatKeepsDutiesDeliversNoError.2.2⟩, _, rfl⟩

theorem witness_OutputLengthFitsItsPort :
    (given (encodeReq 1 3)).req.wellFormed (given (encodeReq 1 3)).params = true ∧
      ∃ t r n, exec .encodeU8 (given (encodeReq 1 3)) = .next t ∧ t.response = some r ∧ r.outLen = some n :=
  ⟨by decide, _, _, _, rfl, rfl, rfl⟩

theorem witness_ShlLineBindsTheShiftedValue : someCaller.value (.literal 1) = some 1#64 := rfl

theorem witness_PackLineBindsThePackedValue :
    State.reset.params.maxLen = none ∧ IntType.u8.signed = false ∧ full8.bitsIn.length ≤ IntType.u8.bits := by decide

theorem witness_EncodeLineThenDecodeLineKeepsTheValue :
    State.reset.params.maxLen = none ∧ someCaller.value (.literal 1) = some 1#64 := ⟨rfl, rfl⟩

theorem witness_FailedLineBindsNothing :
    ∃ c' t, someCaller.runLine (.shl .u8 0 (.literal 1) (-1)) State.reset = .next (c', t) ∧ t.readStatus = .next 1#1 :=
  ⟨_, _, rfl, rfl⟩

end Sys2Proof.Tests
end

section
/-! Shared facts about the commands, for the proofs after them: each instruction as the command of its operation at its
type, what each command can answer, and the tables of the statements read as operation and type. -/

namespace Sys2Proof.Proofs

open Sys2Proof.Machine Sys2Proof.Slice0

/-! ### Every instruction is the command of its operation at its type -/

/-- The command of an operation at a type; PACK at a signed type is reserved (R68, R69). -/
def commandOf (f : CmdFields) (s : State) : Host.Outcome State Fault Refusal :=
  match f.op with
  | .pack => if f.type.signed then reservedCommand s else packCommand f.type s
  | .decode => decodeCommand f.type s
  | .encode => encodeCommand f.type s
  | .shl => shlCommand f.type s

theorem exec_eq_commandOf (i : Instr) (s : State) : exec i s = commandOf i.fields s := by
  cases i <;> rfl

theorem bits_le_64 (T : IntType) : T.bits ≤ 64 := by
  unfold IntType.bits IntType.bytes
  cases T.width <;> decide

theorem zext64_toNat_lt {T : IntType} (p : BitVec T.bits) : (zext64 p).toNat < 2 ^ T.bits := by
  rw [zext64_toNat (bits_le_64 T)]
  exact p.isLt

/-! ### MAXLEN -/

theorem needing_eq_next {k : Nat} {s u t : State} :
    needing k s u = .next t ↔ s.params.admits k = true ∧ u = t := by
  rcases needing_cases k s u with ⟨ha, e⟩ | ⟨ha, e⟩ <;> simp [ha, e]

theorem within_iff_admits (s : State) (k : Nat) : within s k ↔ s.params.admits k = true := by
  unfold within Params.admits
  cases s.params.maxLen <;> simp

/-! ### What the response ports hold after each command -/

theorem packCommand_next {T : IntType} {s t : State} (h : packCommand T s = .next t) :
    ∃ p : BitVec T.bits, t.response = some (.ofValue (zext64 p)) := by
  obtain ⟨-, rfl⟩ := needing_eq_next.1 h
  split
  · exact ⟨_, rfl⟩
  · exact ⟨_, rfl⟩

theorem decodeCommand_next {T : IntType} {s t : State} (h : decodeCommand T s = .next t) :
    ∃ p : BitVec T.bits, t.response = some (.ofValue (zext64 p)) := by
  obtain ⟨-, rfl⟩ := needing_eq_next.1 h
  exact ⟨_, rfl⟩

theorem encodeCommand_next {T : IntType} {s t : State} (h : encodeCommand T s = .next t) :
    (∃ b, t.response = some (.ofBytes b) ∧ s.req.totalBytes = b.length ∧ s.params.admits b.length = true) ∨
      ∃ c, t.response = some (.invalidArgument c) := by
  rcases Int.lt_or_le s.req.totalBytes 0 with hL | hL
  · rw [encodeCommand_negative T s hL] at h
    cases h
    exact .inr ⟨_, rfl⟩
  · rw [encodeCommand_nonneg T s hL] at h
    obtain ⟨ha, rfl⟩ := needing_eq_next.1 h
    exact .inl ⟨_, rfl, by simp [hL], by simpa using ha⟩

theorem shlCommand_next {T : IntType} {s t : State} (h : shlCommand T s = .next t) :
    (∃ p : BitVec T.bits, t.response = some (.ofValue (zext64 p))) ∨
      ∃ c, t.response = some (.invalidArgument c) := by
  unfold shlCommand at h
  split at h
  · cases h
    exact .inr ⟨_, rfl⟩
  · cases h
    exact .inl ⟨_, rfl⟩

/-- What the response ports hold after an instruction: a zero-extended pattern of its type, unless it is an ENCODE;
`total_bytes` bytes, as many as MAXLEN admits, after an ENCODE; or an error. -/
theorem exec_next_cases {i : Instr} {s t : State} (h : exec i s = .next t) :
    (i.fields.op ≠ .encode ∧ ∃ p : BitVec i.fields.type.bits, t.response = some (.ofValue (zext64 p))) ∨
      (i.fields.op = .encode ∧ ∃ b, t.response = some (.ofBytes b) ∧ s.req.totalBytes = b.length ∧
        s.params.admits b.length = true) ∨
      ∃ c, t.response = some (.invalidArgument c) := by
  rw [exec_eq_commandOf, commandOf] at h
  cases hop : i.fields.op <;> simp only [hop] at h
  case pack =>
    split at h
    · cases h
      exact .inr (.inr ⟨_, rfl⟩)
    · exact .inl ⟨by decide, packCommand_next h⟩
  case decode => exact .inl ⟨by decide, decodeCommand_next h⟩
  case encode => exact .inr ((encodeCommand_next h).imp_left fun hb => ⟨rfl, hb⟩)
  case shl =>
    rcases shlCommand_next h with hv | he
    · exact .inl ⟨by decide, hv⟩
    · exact .inr (.inr he)

/-! ### The response as a function of the request -/

/-- The response of a command to a request that MAXLEN does not refuse and whose result is not any value (R84). -/
def responseOf (f : CmdFields) (r : Request) : Response :=
  match f.op with
  | .pack =>
    if f.type.signed then .invalidArgument .illegalCommand
    else .ofValue (zext64 (packPattern f.type.bits r.bitsIn))
  | .decode => .ofValue (zext64 (decodePattern f.type.bits f.type.bytes r.bytesIn))
  | .encode =>
    if r.totalBytes < 0 then .invalidArgument .negativeTotalBytes
    else .ofBytes (encodeBytes f.type.bytes (r.operand f.type.bits) r.totalBytes.toNat)
  | .shl =>
    if r.operand f.type.bits ≠ 0 ∧ r.count < 0 then .invalidArgument .negativeCount
    else .ofValue (zext64 (shlPattern (r.operand f.type.bits) r.count))

/-- Without MAXLEN, an instruction that draws no free value delivers the response of its request and does nothing else. -/
theorem exec_eq_respond {i : Instr} {s : State} (hmax : s.params.maxLen = none)
    (hfit : i.fields.op = .pack → i.fields.type.signed = false → s.req.n ≤ i.fields.type.bits) :
    exec i s = .next (s.respond (responseOf i.fields s.req)) := by
  have hneed (k : Nat) (u : State) : needing k s u = .next u := needing_of_admits (admits_of_unbounded hmax k) u
  rw [exec_eq_commandOf, commandOf, responseOf]
  cases hop : i.fields.op <;> dsimp only
  case pack =>
    cases hsg : i.fields.type.signed
    · rw [packCommand_fits _ _ (hfit hop hsg), hneed]
      rfl
    · rfl
  case decode => rw [decodeCommand, hneed]
  case encode =>
    rw [encodeCommand, hneed]
    split <;> rfl
  case shl =>
    rw [shlCommand]
    split <;> rfl

/-- An unsigned PACK stands in the table of the statements with the width of its type. -/
theorem mem_packTable_of_fields {i : Instr} (hop : i.fields.op = .pack) (hsg : i.fields.type.signed = false) :
    (i, i.fields.type.bits) ∈ packTable := by
  revert hop hsg
  cases i <;> decide

theorem fits_of_not_oversize {r : Request} (h : ¬ Oversize r) (hop : (decode r.cmd).fields.op = .pack)
    (hsg : (decode r.cmd).fields.type.signed = false) : r.n ≤ (decode r.cmd).fields.type.bits :=
  Nat.le_of_not_lt fun hlt => h ⟨_, mem_packTable_of_fields hop hsg, rfl, hlt⟩

end Sys2Proof.Proofs
end

section
/-! The statements of spec/00_scope.md: the step (R17, R18), results of `W(T)` bits (R12), the length port (R7), the numeric
reading of a pattern (R11) and the result of a run (R18). -/

namespace Sys2Proof.Proofs

open Sys2Proof.Machine Sys2Proof.Slice0

/-! ### The step -/

/-- Settles O4, by the two equations of `step`. -/
theorem stepRunsTheDecodedCommand : Obligations.StepRunsTheDecodedCommand :=
  fun _ => ⟨fun _ _ h => step_command h, step_idle⟩

theorem decodeTableWord_eq_some_iff (nbits w : Nat) (i : Instr) :
    decodeTableWord nbits w = some i ↔ w < 32 ∧ decode (BitVec.ofNat 5 w) = i := by
  unfold decodeTableWord decodeNat
  by_cases h : w < 32 <;> simp [h, Except.toOption]

theorem withFetchWord_pending (s : State) (nbits w : Nat) :
    (s.withFetchWord nbits w).pending = { s.req with cmd := BitVec.ofNat 5 w } :: s.pending := rfl

/-- Settles O5: the placed request is the next one, and its word decodes to the instruction of the table. -/
theorem placedWordRunsNext : Obligations.PlacedWordRunsNext := by
  intro s w i h
  obtain ⟨-, hi⟩ := (decodeTableWord_eq_some_iff 8 w i).1 h
  rw [step_command (withFetchWord_pending s 8 w), hi]
  rfl

/-! ### Integer results -/

/-- The widths of the three tables of integer results are those of the instructions' types. -/
theorem bits_of_mem_integerTables :
    ∀ p ∈ packTable ++ decodeTable.map (fun d => (d.1, 8 * d.2)) ++ shlTable, p.1.fields.type.bits = p.2 := by
  decide

/-- Settles O36: `value_out` is driven with a zero-extended pattern of the type alone. -/
theorem integerResultsFitTheirWidth : Obligations.IntegerResultsFitTheirWidth := by
  intro p hp s t r v h hr hv
  rw [← bits_of_mem_integerTables p hp]
  rcases exec_next_cases h with ⟨-, q, hq⟩ | ⟨-, b, hb, -⟩ | ⟨c, hc⟩
  · cases hr.symm.trans hq
    cases hv
    exact zext64_toNat_lt q
  · cases hr.symm.trans hb
    cases hv
  · cases hr.symm.trans hc
    cases hv

/-! ### The length port -/

/-- A non-negative number that a signed port carries fits an unsigned port of the same width. -/
theorem fitsUnsigned_of_fitsSigned {w n : Nat} (h : fitsSigned w n = true) : fitsUnsigned w n = true := by
  simp only [fitsSigned, Bool.and_eq_true, decide_eq_true_eq] at h
  have hlt : n < 2 ^ (w - 1) := by exact_mod_cast h.2
  have hle : 2 ^ (w - 1) ≤ 2 ^ w := Nat.pow_le_pow_right (by decide) (Nat.sub_le w 1)
  exact decide_eq_true (hlt.trans_le hle)

theorem wellFormed_totalBytes {p : Params} {r : Request} (h : r.wellFormed p = true) :
    fitsSigned p.lw r.totalBytes = true := by
  simp only [Request.wellFormed, Bool.and_eq_true] at h
  tauto

/-- Settles O46: `out_len` is driven by ENCODE alone, with `total_bytes`, which its signed port carries and MAXLEN admits. -/
theorem outputLengthFitsItsPort : Obligations.OutputLengthFitsItsPort := by
  intro i s t r n hwf h hr hn
  rcases exec_next_cases h with ⟨-, q, hq⟩ | ⟨-, b, hb, hL, ha⟩ | ⟨c, hc⟩
  · cases hr.symm.trans hq
    cases hn
  · cases hr.symm.trans hb
    cases hn
    have hport : fitsSigned s.params.lw b.length = true := hL ▸ wellFormed_totalBytes hwf
    exact ⟨fitsUnsigned_of_fitsSigned hport, (within_iff_admits s b.length).2 ha⟩
  · cases hr.symm.trans hc
    cases hn

/-! ### Numeric values -/

theorem numericValue_of_unsigned {T : IntType} (h : T.signed = false) (p : BitVec T.bits) :
    T.numericValue p = p.toNat := by
  simp [IntType.numericValue, h]

/-- At a signed type the numeric value is the library's two's complement reading (G1). -/
theorem numericValue_of_signed {T : IntType} (h : T.signed = true) (p : BitVec T.bits) :
    T.numericValue p = p.toInt := by
  rw [BitVec.toInt_eq_msb_cond, BitVec.msb_eq_getLsbD_last]
  simp [IntType.numericValue, h]

theorem toNat_emod_two_pow {w : Nat} (p : BitVec w) : (p.toNat : Int) % 2 ^ w = p.toNat := by
  exact_mod_cast Nat.mod_eq_of_lt p.isLt

theorem toInt_emod_two_pow {w : Nat} (p : BitVec w) : p.toInt % 2 ^ w = p.toNat := by
  have h := Int.bmod_emod (x := p.toNat) (m := 2 ^ w)
  rw [← BitVec.toInt_eq_toNat_bmod] at h
  push_cast at h
  rw [h, toNat_emod_two_pow]

/-- Settles O51, by the two readings: `toNat` at an unsigned type, `toInt` at a signed one. -/
theorem numericValueReadsThePattern : Obligations.NumericValueReadsThePattern := by
  intro T p
  cases h : T.signed
  case false =>
    rw [numericValue_of_unsigned h]
    refine ⟨toNat_emod_two_pow p, ?_, fun _ => ⟨Int.natCast_nonneg _, ?_⟩, nofun⟩
    · rw [Int.natCast_eq_zero, BitVec.toNat_eq, BitVec.toNat_zero]
    · exact_mod_cast p.isLt
  case true =>
    rw [numericValue_of_signed h]
    refine ⟨toInt_emod_two_pow p, ?_, nofun, fun _ => ⟨BitVec.le_toInt p, BitVec.toInt_lt⟩⟩
    rw [← BitVec.toInt_inj, BitVec.toInt_zero]

/-! ### Runs -/

/-- Without MAXLEN, a step takes the next request and delivers its response, unless the result is any value (R84). -/
theorem step_eq_respond {s : State} {r : Request} {rest : List Request} (hmax : s.params.maxLen = none)
    (hp : s.pending = r :: rest) (hr : ¬ Oversize r) :
    step s = .next ((s.present r rest).respond (responseOf (decode r.cmd).fields r)) :=
  (step_command hp).trans (exec_eq_respond hmax (fits_of_not_oversize hr))

/-- A run of the pending requests delivers the responses of the requests, in order. -/
theorem run_delivers_responses (reqs : List Request) (s : State) (hp : s.pending = reqs)
    (hmax : s.params.maxLen = none) (hfit : ∀ r ∈ reqs, ¬ Oversize r) :
    ∃ t : State, Host.Core.run core reqs.length s = .next t ∧
      t.delivered = s.delivered ++ reqs.map (fun r => responseOf (decode r.cmd).fields r) ∧
      t.pending = [] ∧ t.draws = s.draws := by
  induction reqs generalizing s with
  | nil => exact ⟨s, run_zero s, by simp, hp, rfl⟩
  | cons r rest ih =>
    obtain ⟨hr, hrest⟩ := List.forall_mem_cons.1 hfit
    have hstep := step_eq_respond hmax hp hr
    obtain ⟨t, hrun, hdel, hpend, hdraws⟩ :=
      ih ((s.present r rest).respond (responseOf (decode r.cmd).fields r)) rfl hmax hrest
    exact ⟨t, (run_succ_of_next _ hstep).trans hrun, by simp [hdel], hpend, hdraws⟩

/-- Settles O40: the function is `responseOf` at the fields of the request's own command word. -/
theorem runIsTheListOfResponsesOfItsRequests : Obligations.RunIsTheListOfResponsesOfItsRequests :=
  ⟨fun r => responseOf (decode r.cmd).fields r, fun s hmax hfit => run_delivers_responses s.pending s rfl hmax hfit⟩

end Sys2Proof.Proofs
end

section
/-! Shared facts about the commands, continued: the tables of the statements read as operation and type, and an instruction
with MAXLEN set as one test of a length before one response. -/

namespace Sys2Proof.Proofs

open Sys2Proof.Machine Sys2Proof.Slice0

/-! ### The tables of the statements -/

theorem isPack_iff (i : Instr) : IsPack i ↔ i.fields.op = .pack ∧ i.fields.type.signed = false := by
  unfold IsPack
  cases i <;> decide

theorem isDecode_iff (i : Instr) : IsDecode i ↔ i.fields.op = .decode := by
  unfold IsDecode
  cases i <;> decide

theorem isEncode_iff (i : Instr) : IsEncode i ↔ i.fields.op = .encode := by
  unfold IsEncode
  cases i <;> decide

theorem isShl_iff (i : Instr) : IsShl i ↔ i.fields.op = .shl := by
  unfold IsShl
  cases i <;> decide

/-- An instruction with an integer result is no ENCODE. -/
theorem op_ne_encode {i : Instr} (h : IsPack i ∨ IsDecode i ∨ IsShl i) : i.fields.op ≠ .encode := by
  rw [isPack_iff, isDecode_iff, isShl_iff] at h
  rcases h with ⟨h, -⟩ | h | h <;> simp [h]

theorem mem_encodeTable_of_op {i : Instr} (hop : i.fields.op = .encode) : (i, i.fields.type.bytes) ∈ encodeTable := by
  revert hop
  cases i <;> decide

theorem mem_shlTable_of_op {i : Instr} (hop : i.fields.op = .shl) : (i, i.fields.type.bits) ∈ shlTable := by
  revert hop
  cases i <;> decide

/-! ### MAXLEN set or not -/

/-- The length of the sequence that a command takes or returns, which MAXLEN bounds (R56); 0 where there is none. -/
def neededLength (f : CmdFields) (r : Request) : Nat :=
  match f.op with
  | .pack => if f.type.signed then 0 else r.n
  | .decode => r.len
  | .encode => r.totalBytes.toNat
  | .shl => 0

theorem needing_zero (s t : State) : needing 0 s t = .next t :=
  needing_of_admits ((within_iff_admits s 0).1 fun _ _ => Nat.zero_le _) t

/-- An instruction that draws no free value is refused for the length it needs, or delivers the response of its request. -/
theorem exec_eq_needing {i : Instr} {s : State}
    (hfit : i.fields.op = .pack → i.fields.type.signed = false → s.req.n ≤ i.fields.type.bits) :
    exec i s = needing (neededLength i.fields s.req) s (s.respond (responseOf i.fields s.req)) := by
  rw [exec_eq_commandOf, commandOf, responseOf, neededLength]
  cases hop : i.fields.op <;> dsimp only
  case pack =>
    cases hsg : i.fields.type.signed
    · exact packCommand_fits _ _ (hfit hop hsg)
    · exact (needing_zero s _).symm
  case decode => rfl
  case encode =>
    rcases Int.lt_or_le s.req.totalBytes 0 with hL | hL
    · rw [encodeCommand_negative _ _ hL, Int.toNat_of_nonpos hL.le, needing_zero, if_pos hL]
      rfl
    · rw [encodeCommand_nonneg _ _ hL, if_neg (by omega)]
  case shl =>
    rw [needing_zero, shlCommand]
    split <;> rfl

end Sys2Proof.Proofs
end

section
/-! The statements of spec/10_state.md: the ports a command reads and drives (R31), what a command leaves as it is (R20, R28),
reset (R33), and the invariant of a run (R22, R31, R177). -/

namespace Sys2Proof.Proofs

open Sys2Proof.Machine Sys2Proof.Slice0

/-! ### Reset and the invariant of a run -/

/-- Settles O1: no port carries a value before the first response. -/
theorem resetLeavesPortsWithoutValue : Obligations.ResetLeavesPortsWithoutValue :=
  ⟨rfl, rfl, rfl, rfl, rfl, rfl, rfl, rfl, rfl⟩

/-- Settles O2: nothing is on the ports and nothing is delivered. -/
theorem runInvariantHoldsAtReset : Obligations.RunInvariantHoldsAtReset :=
  ⟨rfl, nofun⟩

/-- Taking a request from the list leaves the ports and the responses delivered as they are. -/
theorem inv_present {s : State} (h : s.Inv) (q : Request) (rest : List Request) : (s.present q rest).Inv :=
  ⟨h.ports_show_last, h.delivered_legal⟩

/-- Delivering one more legal response keeps the invariant. -/
theorem inv_of_delivers {s t : State} {r : Response} (h : s.Inv) (hr : r.Legal) (d : Delivers s t r) : t.Inv := by
  obtain ⟨ht, -⟩ := d
  have hresp : t.response = some r := by rw [ht]
  have hdel : t.delivered = s.delivered ++ [r] := by rw [ht]
  constructor
  case ports_show_last => rw [hresp, hdel, List.getLast?_concat]
  case delivered_legal =>
    rw [hdel, List.forall_mem_append]
    exact ⟨h.delivered_legal, List.forall_mem_singleton.2 hr⟩

/-- Settles O3: a step leaves the state as it is or delivers one legal response. -/
theorem everyStepKeepsRunInvariant : Obligations.EveryStepKeepsRunInvariant := by
  intro s t hs h
  rcases step_next_cases h with ⟨-, rfl⟩ | ⟨q, rest, r, -, hr, d⟩
  · exact hs
  · exact inv_of_delivers (inv_present hs q rest) hr d

/-! ### The ports a command drives -/

/-- Settles O34, by the three shapes of a response: an integer, a buffer, an error. -/
theorem eachCommandDrivesItsPortsOnly : Obligations.EachCommandDrivesItsPortsOnly := by
  intro i s t r h hr
  rcases exec_next_cases h with ⟨hop, p, hp⟩ | ⟨hop, b, hb, hL, -⟩ | ⟨c, hc⟩
  · cases hr.symm.trans hp
    exact ⟨nofun, fun _ _ => ⟨rfl, rfl, rfl⟩, fun _ hi => absurd ((isEncode_iff i).1 hi) hop⟩
  · cases hr.symm.trans hb
    exact ⟨nofun, fun _ hi => absurd hop (op_ne_encode hi), fun _ _ => ⟨rfl, b.length, rfl, hL⟩⟩
  · cases hr.symm.trans hc
    exact ⟨fun _ => ⟨rfl, rfl, rfl⟩, nofun, nofun⟩

theorem readStatus_of_response {t : State} {r : Response} (hr : t.response = some r) : t.readStatus = .next r.status := by
  rw [State.readStatus, hr]
  rfl

theorem readValueOut_of_undriven {t : State} {r : Response} (hr : t.response = some r) (hv : r.valueOut = none) :
    t.readValueOut = .fault (.portCarriesNoValue .valueOut) := by
  rw [State.readValueOut, hr, Option.bind_some, hv]
  rfl

theorem readBytesOut_of_undriven {t : State} {r : Response} (hr : t.response = some r) (hb : r.bytesOut = none) :
    t.readBytesOut = .fault (.portCarriesNoValue .bytesOut) := by
  rw [State.readBytesOut, hr, Option.bind_some, hb]
  rfl

theorem readOutLen_of_undriven {t : State} {r : Response} (hr : t.response = some r) (hn : r.outLen = none) :
    t.readOutLen = .fault (.portCarriesNoValue .outLen) := by
  rw [State.readOutLen, hr, Option.bind_some, hn]
  rfl

/-- Settles O37: after either status, the ports that `eachCommandDrivesItsPortsOnly` says are not driven fault when read. -/
theorem readingAnUndrivenPortFaults : Obligations.ReadingAnUndrivenPortFaults := by
  intro i s t h
  obtain ⟨r, hlegal, ht, -⟩ := exec_next_delivers h
  have hr : t.response = some r := by rw [ht]
  obtain ⟨herr, hint, hbuf⟩ := eachCommandDrivesItsPortsOnly i s t r h hr
  rw [readStatus_of_response hr]
  rcases hlegal with ⟨hok, -⟩ | ⟨hinv, -⟩
  case inl =>
    rw [hok]
    constructor
    · rintro (hi | hi)
      · exact readValueOut_of_undriven hr (hbuf hok hi).1
      · cases hi
    · intro hi
      have hi' : IsPack i ∨ IsDecode i ∨ IsShl i := by simpa using hi
      obtain ⟨-, hb, hn⟩ := hint hok hi'
      exact ⟨readBytesOut_of_undriven hr hb, readOutLen_of_undriven hr hn⟩
  case inr =>
    obtain ⟨hv, hb, hn⟩ := herr hinv
    exact ⟨fun _ => readValueOut_of_undriven hr hv,
      fun _ => ⟨readBytesOut_of_undriven hr hb, readOutLen_of_undriven hr hn⟩⟩

/-! ### What an instruction leaves as it is -/

/-- Settles O38: the frame is that of `Delivers`, and a request that fits draws no free value. -/
theorem everyInstructionOnlyDeliversAResponse : Obligations.EveryInstructionOnlyDeliversAResponse := by
  intro i s t h
  obtain ⟨r, -, ht, -⟩ := exec_next_delivers h
  refine ⟨by rw [ht], by rw [ht], by rw [ht], ⟨r, by rw [ht], by rw [ht]⟩, fun hfit => ?_⟩
  rw [exec_eq_needing fun hop hsg => hfit _ (mem_packTable_of_fields hop hsg) rfl] at h
  obtain ⟨-, rfl⟩ := needing_eq_next.1 h
  rfl

/-- A step with a request that draws no free value is that request's test against MAXLEN and its response. -/
theorem step_eq_needing {s : State} {r : Request} {rest : List Request} (hp : s.pending = r :: rest)
    (hr : ¬ Oversize r) :
    step s = needing (neededLength (decode r.cmd).fields r) (s.present r rest)
      ((s.present r rest).respond (responseOf (decode r.cmd).fields r)) :=
  (step_command hp).trans (exec_eq_needing (fits_of_not_oversize hr))

/-- Settles O39: refusal and response are functions of the parameters and the request. -/
theorem responsesDoNotDependOnHistory : Obligations.ResponsesDoNotDependOnHistory := by
  intro s s' t r rest rest' hs hs' hparams hr h
  rw [step_eq_needing hs hr] at h
  obtain ⟨hadm, rfl⟩ := needing_eq_next.1 h
  rw [State.present_params, hparams] at hadm
  exact ⟨_, (step_eq_needing hs' hr).trans (needing_of_admits hadm _), rfl⟩

/-! ### The ports a command reads -/

/-- An outcome with other values on the request ports. -/
def onPorts (q : Request) : Host.Outcome State Fault Refusal → Host.Outcome State Fault Refusal
  | .next t => .next { t with req := q }
  | .fault f => .fault f
  | .refused e => .refused e

theorem needing_onPorts (k : Nat) (s t : State) (q : Request) :
    needing k { s with req := q } { t with req := q } = onPorts q (needing k s t) := by
  unfold needing
  split <;> rfl

theorem packCommand_onPorts {T : IntType} {s : State} {q : Request} (hbits : q.bitsIn = s.req.bitsIn) :
    packCommand T { s with req := q } = onPorts q (packCommand T s) := by
  have hn : q.n = s.req.n := congrArg List.length hbits
  rw [packCommand, packCommand, ← needing_onPorts]
  simp only [hn, hbits]
  split <;> rfl

theorem decodeCommand_onPorts {T : IntType} {s : State} {q : Request} (hbytes : q.bytesIn = s.req.bytesIn) :
    decodeCommand T { s with req := q } = onPorts q (decodeCommand T s) := by
  have hlen : q.len = s.req.len := congrArg List.length hbytes
  rw [decodeCommand, decodeCommand, ← needing_onPorts]
  simp only [hlen, hbytes]
  rfl

theorem encodeCommand_onPorts {T : IntType} {s : State} {q : Request} (hL : q.totalBytes = s.req.totalBytes)
    (hp : q.operand T.bits = s.req.operand T.bits) :
    encodeCommand T { s with req := q } = onPorts q (encodeCommand T s) := by
  simp only [encodeCommand, hL, hp]
  split
  · rfl
  · exact needing_onPorts _ s (s.respond _) q

theorem shlCommand_onPorts {T : IntType} {s : State} {q : Request} (hc : q.count = s.req.count)
    (hp : q.operand T.bits = s.req.operand T.bits) :
    shlCommand T { s with req := q } = onPorts q (shlCommand T s) := by
  simp only [shlCommand, hc, hp]
  split <;> rfl

/-- The operand is the low `W` bits of `value_in` (R29). -/
theorem operand_eq_of_mod_eq {q r : Request} {W : Nat} (h : q.valueIn.toNat % 2 ^ W = r.valueIn.toNat % 2 ^ W) :
    q.operand W = r.operand W := by
  apply BitVec.eq_of_toNat_eq
  rw [Request.operand, Request.operand, BitVec.toNat_setWidth, BitVec.toNat_setWidth, h]

/-- Settles O35: each operation reads its own ports, and so does the command of each instruction. -/
theorem unreadPortsAreIgnored : Obligations.UnreadPortsAreIgnored := by
  intro i s q hpack hdecode hencode hshl
  have hexec : exec i { s with req := q } = onPorts q (exec i s) := by
    rw [exec_eq_commandOf, exec_eq_commandOf, commandOf, commandOf]
    cases hop : i.fields.op <;> dsimp only
    case pack =>
      cases hsg : i.fields.type.signed
      · exact packCommand_onPorts (hpack ((isPack_iff i).2 ⟨hop, hsg⟩))
      · rfl
    case decode => exact decodeCommand_onPorts (hdecode ((isDecode_iff i).2 hop))
    case encode =>
      obtain ⟨hL, hmod⟩ := hencode _ (mem_encodeTable_of_op hop) rfl
      rw [Nat.mul_comm] at hmod
      exact encodeCommand_onPorts hL (operand_eq_of_mod_eq hmod)
    case shl =>
      obtain ⟨hc, hmod⟩ := hshl _ (mem_shlTable_of_op hop) rfl
      exact shlCommand_onPorts hc (operand_eq_of_mod_eq hmod)
  rw [hexec]
  exact ⟨fun t h => by rw [h, onPorts], fun e h => by rw [h, onPorts]⟩

end Sys2Proof.Proofs
end

section
/-! The statements of spec/20_memory.md: a buffer written at one width and read at another (R45), commands in either order
(R50), and what MAXLEN refuses (R56). -/

namespace Sys2Proof.Proofs

open Sys2Proof.Machine Sys2Proof.Slice0

/-! ### ENCODE and DECODE as they answer -/

theorem op_of_mem_encodeTable : ∀ e ∈ encodeTable, e.1.fields.op = .encode ∧ e.1.fields.type.bytes = e.2 := by decide

theorem op_of_mem_decodeTable : ∀ d ∈ decodeTable, d.1.fields.op = .decode ∧ d.1.fields.type.bytes = d.2 := by decide

/-- ENCODE into `L` bytes that MAXLEN admits delivers the buffer of R110. -/
theorem exec_encode {i : Instr} {s : State} {L : Nat} (hop : i.fields.op = .encode) (hL : s.req.totalBytes = L)
    (hw : within s L) :
    exec i s = .next (afterBytes s (encodeBytes i.fields.type.bytes (s.req.operand i.fields.type.bits) L)) := by
  rw [exec_eq_commandOf, commandOf, hop]
  dsimp only
  rw [encodeCommand_nonneg _ _ (by omega), hL, Int.toNat_natCast, needing_of_admits ((within_iff_admits s L).1 hw)]
  rfl

/-- DECODE of a buffer that MAXLEN admits delivers the zero-extended pattern of R100. -/
theorem exec_decode {i : Instr} {s : State} (hop : i.fields.op = .decode) (hw : within s s.req.bytesIn.length) :
    exec i s =
      .next (afterValue s (zext64 (decodePattern i.fields.type.bits i.fields.type.bytes s.req.bytesIn))) := by
  rw [exec_eq_commandOf, commandOf, hop]
  exact needing_of_admits ((within_iff_admits s _).1 hw) _

theorem within_of_unbounded {s : State} (hmax : s.params.maxLen = none) (k : Nat) : within s k :=
  (within_iff_admits s k).2 (admits_of_unbounded hmax k)

/-! ### A buffer written at one width and read at another -/

/-- The byte `j` places from the end of an encoded buffer is lane `j` of the pattern, or zero where there is none. -/
theorem getD_encodeBytes_from_end {W : Nat} (w : Nat) (p : BitVec W) {L j : Nat} (hj : j < L) :
    (encodeBytes w p L).getD (L - 1 - j) 0#8 = if j < w then lane p j else 0#8 := by
  rw [List.getD_eq_getElem?_getD, getElem?_encodeBytes _ _ _ _ (by omega), show L - 1 - (L - 1 - j) = j by omega,
    Option.getD_some]

/-- DECODE at width `v` of what ENCODE at width `w` writes into `L` bytes keeps the bits of the lanes below all three. -/
theorem getLsbD_decodePattern_encodeBytes {W : Nat} (v w : Nat) (p : BitVec W) (L i : Nat) :
    (decodePattern (8 * v) v (encodeBytes w p L)).getLsbD i =
      (decide (i < 8 * min (min w v) L) && p.getLsbD i) := by
  have hsplit : i < 8 * min (min w v) L ↔ i / 8 < w ∧ i < 8 * v ∧ i / 8 < L := by omega
  have hbit : (lane p (i / 8)).getLsbD (i % 8) = p.getLsbD i := by
    rw [getLsbD_lane, Nat.div_add_mod, decide_eq_true (Nat.mod_lt i (by decide)), Bool.true_and]
  rw [getLsbD_decodePattern, length_encodeBytes]
  simp only [hsplit]
  by_cases hL : i / 8 < L
  case neg => simp [hL]
  rw [getD_encodeBytes_from_end w p hL]
  by_cases hw : i / 8 < w
  · rw [if_pos hw, hbit]
    simp [hL, hw]
  · simp [hw]

/-- The same as a number, from and to the ports: `value_in` modulo `2^(8·min(w, v, L))`. -/
theorem toNat_decodePattern_encodeBytes (S T : IntType) (r : Request) (L : Nat) :
    (decodePattern T.bits T.bytes (encodeBytes S.bytes (r.operand S.bits) L)).toNat =
      r.valueIn.toNat % 2 ^ (8 * min (min S.bytes T.bytes) L) := by
  apply Nat.eq_of_testBit_eq
  intro i
  have hbelow : i < 8 * min (min S.bytes T.bytes) L → i < S.bytes * 8 := by omega
  rw [BitVec.testBit_toNat, Nat.testBit_mod_two_pow, BitVec.testBit_toNat, IntType.bits, Nat.mul_comm T.bytes,
    getLsbD_decodePattern_encodeBytes, Request.operand, BitVec.getLsbD_setWidth, IntType.bits]
  by_cases hi : i < 8 * min (min S.bytes T.bytes) L
  · rw [decide_eq_true (hbelow hi), Bool.true_and]
  · rw [decide_eq_false hi, Bool.false_and, Bool.false_and]

/-- Settles O22: DECODE after ENCODE keeps the lanes that both types and the buffer have. -/
theorem mixedWidthViewKeepsTheLowLanes : Obligations.MixedWidthViewKeepsTheLowLanes := by
  intro e he d hd s p L hmax
  obtain ⟨hope, hwe⟩ := op_of_mem_encodeTable e he
  obtain ⟨hopd, hwd⟩ := op_of_mem_decodeTable d hd
  refine ⟨_, _, exec_encode hope rfl (within_of_unbounded hmax L), exec_decode hopd (within_of_unbounded hmax _), ?_⟩
  rw [zext64_toNat (bits_le_64 _), ← hwe, ← hwd]
  exact toNat_decodePattern_encodeBytes _ _ _ L

/-! ### Two commands in either order -/

/-- Settles O41: each order delivers the responses of its requests, and a response is a function of its request alone. -/
theorem independentCommandsCommute : Obligations.IndependentCommandsCommute := by
  intro s a b hmax ha hb
  have hab : ∀ r ∈ [a, b], ¬ Oversize r := by simp [ha, hb]
  have hba : ∀ r ∈ [b, a], ¬ Oversize r := by simp [ha, hb]
  obtain ⟨t, hrunt, hdelt, -⟩ := run_delivers_responses [a, b] { s with pending := [a, b] } rfl hmax hab
  obtain ⟨u, hrunu, hdelu, -⟩ := run_delivers_responses [b, a] { s with pending := [b, a] } rfl hmax hba
  exact ⟨_, _, t, u, hrunt, hdelt, hrunu, hdelu⟩

/-! ### What MAXLEN refuses -/

theorem needing_eq_refused {k : Nat} {s u : State} {e : Refusal} :
    needing k s u = .refused e ↔ e = .overMaxLen ∧ ¬ within s k := by
  rw [within_iff_admits]
  rcases needing_cases k s u with ⟨ha, hn⟩ | ⟨ha, hn⟩ <;> simp [ha, hn, eq_comm]

theorem not_within_iff (s : State) (k : Nat) : ¬ within s k ↔ ∃ m, s.params.maxLen = some m ∧ m < k := by
  simp [within]

/-- Every instruction, oversized PACK too, is one test of the length it needs against MAXLEN before its next state. -/
theorem exec_needs_length (i : Instr) (s : State) : ∃ t, exec i s = needing (neededLength i.fields s.req) s t := by
  by_cases hpack : IsPack i
  · obtain ⟨hop, hsg⟩ := (isPack_iff i).1 hpack
    rw [exec_eq_commandOf, commandOf, neededLength, hop, hsg]
    exact ⟨_, rfl⟩
  · exact ⟨_, exec_eq_needing fun hop hsg => absurd ((isPack_iff i).2 ⟨hop, hsg⟩) hpack⟩

/-- The needed length is over a bound exactly for a PACK, DECODE or ENCODE whose own sequence is (R56). -/
theorem lt_neededLength_iff (i : Instr) (r : Request) (m : Nat) :
    m < neededLength i.fields r ↔
      (IsPack i ∧ m < r.bitsIn.length) ∨ (IsDecode i ∧ m < r.bytesIn.length) ∨
        (IsEncode i ∧ (m : Int) < r.totalBytes) := by
  rw [isPack_iff, isDecode_iff, isEncode_iff, neededLength]
  cases hop : i.fields.op
  case pack => cases hsg : i.fields.type.signed <;> simp [Request.n]
  case decode => simp [Request.len]
  case encode => simp [Int.lt_toNat]
  case shl => simp

/-- Settles O43: the one refusal is that of the length test, and only the three operations with a sequence need a length. -/
theorem refusedExactlyOverMaxLen : Obligations.RefusedExactlyOverMaxLen := by
  intro i s e
  obtain ⟨t, ht⟩ := exec_needs_length i s
  rw [ht, needing_eq_refused, not_within_iff]
  simp only [lt_neededLength_iff]

end Sys2Proof.Proofs
end

section
/-! The statements of spec/30_encoding.md: the command word (R60 to R63, R68, R69) and the caller's lines (R71). -/

namespace Sys2Proof.Proofs

open Sys2Proof.Machine Sys2Proof.Slice0

/-! ### The command word -/

@[simp] theorem decode_encode (i : Instr) : decode (encode i) = i := by cases i <;> rfl

@[simp] theorem encode_decode : ∀ w : BitVec 5, encode (decode w) = w := by decide

theorem decodeNat_of_le {w : Nat} (h : 32 ≤ w) : decodeNat w = .error .widerThanFiveBits :=
  if_neg (Nat.not_lt.2 h)

/-- Settles O6, by the two round trips and the length test of `decodeNat`. -/
theorem decodeAndEncodeAgree : Obligations.DecodeAndEncodeAgree :=
  ⟨decode_encode, encode_decode, fun _ h => decodeNat_of_le h⟩

/-- An instruction has the operation and type of the word it is decoded from (R60). -/
theorem fields_decode (w : BitVec 5) : (decode w).fields = CmdFields.ofWord w := by
  rw [Instr.fields, encode_decode]

/-- The opcode map has a command for each operation and type, which its word names again (R68). -/
@[simp] theorem fields_ofFields (f : CmdFields) : (Instr.ofFields f).fields = f := by
  obtain ⟨op, width, signed⟩ := f
  cases op <;> cases signed <;> cases width <;> rfl

/-- Settles O7: the fields are read off the word, and each of the 32 words has the fields that R61 to R63 give it. -/
theorem commandWordFieldsNameOperationAndType : Obligations.CommandWordFieldsNameOperationAndType := by
  intro w
  rw [fields_decode]
  revert w
  decide

/-- Settles O8, by decoding the nine words. -/
theorem wordsOfTheOpcodeMapDecode : Obligations.WordsOfTheOpcodeMapDecode :=
  ⟨rfl, rfl, rfl, rfl, rfl, rfl, rfl, rfl, rfl⟩

/-! ### Issuing a line -/

/-- The request of a line carries the command word of the line's operation and type. -/
theorem decode_cmd_of_request {c : Caller} {base r : Request} {l : Line} (h : c.request base l = some r) :
    decode r.cmd = Instr.ofFields l.fields := by
  obtain ⟨-, hon⟩ := Option.ite_none_right_eq_some.1 h
  cases l <;> simp only [Caller.requestOn, Option.map_eq_some_iff, Option.some.injEq] at hon
  case pack =>
    subst hon
    exact decode_encode _
  all_goals
    obtain ⟨_, -, rfl⟩ := hon
    exact decode_encode _

/-- A line whose request draws no free value, and needs no sequence over MAXLEN, delivers the response of its request and
binds from it. -/
theorem runLine_eq_respond {c : Caller} {l : Line} {s : State} {r : Request} (hr : c.request s.req l = some r)
    (hfit : l.fields.op = .pack → r.n ≤ l.fields.type.bits) (hw : within s (neededLength l.fields r)) :
    c.runLine l s =
      .next (c.bind l (responseOf l.fields r), ({ s with req := r } : State).respond (responseOf l.fields r)) := by
  have hexec : exec (decode r.cmd) { s with req := r } =
      .next (({ s with req := r } : State).respond (responseOf l.fields r)) := by
    have hfields : (decode r.cmd).fields = l.fields := by rw [decode_cmd_of_request hr, fields_ofFields]
    rw [exec_eq_needing, hfields]
    · exact needing_of_admits ((within_iff_admits s _).1 hw) _
    · rw [hfields]
      exact fun hop _ => hfit hop
  exact Caller.runLine_of_next hr hexec

/-- A line that runs has a request, delivers a legal response and binds from it. -/
theorem runLine_next {c c' : Caller} {l : Line} {s t : State} (h : c.runLine l s = .next (c', t)) :
    ∃ r : Response, r.Legal ∧ t.response = some r ∧ c' = c.bind l r := by
  unfold Caller.runLine at h
  split at h
  case h_1 => cases h
  case h_2 =>
    split at h
    case h_1 hstep =>
      cases h
      obtain ⟨r, hlegal, ht, -⟩ := exec_next_delivers ((step_command rfl).symm.trans hstep)
      have hresp : t.response = some r := by rw [ht]
      exact ⟨r, hlegal, hresp, by rw [hresp]; rfl⟩
    all_goals cases h

/-! ### Binding from a response -/

theorem bindValue_of_none {c : Caller} {r : Response} (h : r.valueOut = none) (T : IntType) (vd : Nat) :
    c.bindValue T vd r = c := by
  rw [Caller.bindValue, h]

/-- A pattern of the type comes back from `value_out` as it was put there (R29). -/
theorem setWidth_zext64 {T : IntType} (p : BitVec T.bits) : (zext64 p).setWidth T.bits = p := by
  apply BitVec.eq_of_toNat_eq
  rw [BitVec.toNat_setWidth, Nat.mod_eq_of_lt (zext64_toNat_lt p), zext64_toNat (bits_le_64 T)]

theorem bindValue_ofValue (c : Caller) (T : IntType) (vd : Nat) (p : BitVec T.bits) :
    c.bindValue T vd (.ofValue (zext64 p)) = { c with values := bindName vd (zext64 p) c.values } := by
  rw [Caller.bindValue, Response.ofValue_valueOut]
  dsimp only
  rw [setWidth_zext64]

@[simp] theorem bindValue_buffers (c : Caller) (T : IntType) (vd : Nat) (r : Response) :
    (c.bindValue T vd r).buffers = c.buffers := by
  unfold Caller.bindValue
  split <;> rfl

theorem bindValue_value_other (c : Caller) (T : IntType) {vd name : Nat} (r : Response) (h : name ≠ vd) :
    (c.bindValue T vd r).value (.held name) = c.value (.held name) := by
  unfold Caller.bindValue
  split
  · exact lookup_bindName_other _ _ h
  · rfl

theorem buffer_held_of_bound (c : Caller) (bd : Nat) (b : List Byte) :
    ({ c with buffers := bindName bd b c.buffers } : Caller).buffer (.held bd) = some b :=
  lookup_bindName_self bd b c.buffers

/-- An error binds nothing, because it drives no result (R71, R177). -/
theorem bind_of_undriven {c : Caller} {r : Response} (l : Line) (hv : r.valueOut = none) (hb : r.bytesOut = none) :
    c.bind l r = c := by
  cases l
  case encode => simp only [Caller.bind, hb]
  all_goals exact bindValue_of_none hv _ _

/-- A legal response of status 1 drives no result (R177). -/
theorem undriven_of_legal_error {r : Response} (h : r.Legal) (hs : r.status = 1#1) :
    r.valueOut = none ∧ r.bytesOut = none := by
  rcases h with ⟨hok, -⟩ | ⟨-, -, hv, hb⟩
  · rw [hok] at hs
    cases hs
  · exact ⟨hv, hb⟩

/-- Settles O50: the response of status 1 drives nothing that could be bound, and a binding replaces its own name alone. -/
theorem failedLineBindsNothing : Obligations.FailedLineBindsNothing := by
  intro c c' s t l h
  obtain ⟨r, hlegal, hresp, rfl⟩ := runLine_next h
  constructor
  · intro hstatus
    rw [readStatus_of_response hresp, Host.Outcome.next.injEq] at hstatus
    obtain ⟨hv, hb⟩ := undriven_of_legal_error hlegal hstatus
    exact bind_of_undriven l hv hb
  · cases l
    case encode =>
      dsimp only [Caller.bind]
      split
      · exact ⟨rfl, fun _ hname => lookup_bindName_other _ _ hname⟩
      · exact ⟨rfl, fun _ _ => rfl⟩
    all_goals exact ⟨bindValue_buffers c _ _ r, fun _ hname => bindValue_value_other c _ r hname⟩

/-! ### What a line binds -/

theorem runLine_pack {s : State} {T : IntType} {bits : List Bit} (c : Caller) (vd : Nat) (hmax : s.params.maxLen = none)
    (hsg : T.signed = false) (hn : bits.length ≤ T.bits) :
    ∃ t, c.runLine (.pack T vd bits) s =
      .next ({ c with values := bindName vd (zext64 (packPattern T.bits bits)) c.values }, t) := by
  have hr : c.request s.req (.pack T vd bits) =
      some { s.req with cmd := encode (Instr.ofFields ⟨.pack, T⟩), bitsIn := bits } := by
    simp [Caller.request, Caller.requestOn, Line.fields, CmdFields.legal, hsg]
  have hrun := runLine_eq_respond hr (fun _ => hn) (within_of_unbounded hmax _)
  simp only [responseOf, Line.fields, hsg, Bool.false_eq_true, if_false, Caller.bind, bindValue_ofValue] at hrun
  exact ⟨_, hrun⟩

theorem runLine_decode {c : Caller} {s : State} {bs : BufferSource} {b : List Byte} (T : IntType) (vd : Nat)
    (hmax : s.params.maxLen = none) (hb : c.buffer bs = some b) :
    ∃ t, c.runLine (.decode T vd bs) s =
      .next ({ c with values := bindName vd (zext64 (decodePattern T.bits T.bytes b)) c.values }, t) := by
  have hr : c.request s.req (.decode T vd bs) =
      some { s.req with cmd := encode (Instr.ofFields ⟨.decode, T⟩), bytesIn := b } := congrArg (Option.map _) hb
  have hrun := runLine_eq_respond hr nofun (within_of_unbounded hmax _)
  simp only [responseOf, Line.fields, Caller.bind, bindValue_ofValue] at hrun
  exact ⟨_, hrun⟩

theorem runLine_encode {c : Caller} {s : State} {vs : ValueSource} {x : PortWord} (T : IntType) (bd L : Nat)
    (hmax : s.params.maxLen = none) (hx : c.value vs = some x) :
    ∃ t, c.runLine (.encode T bd vs L) s =
        .next ({ c with buffers := bindName bd (encodeBytes T.bytes (x.setWidth T.bits) L) c.buffers }, t) ∧
      t.params = s.params := by
  have hr : c.request s.req (.encode T bd vs L) =
      some { s.req with cmd := encode (Instr.ofFields ⟨.encode, T⟩), valueIn := x, totalBytes := L } :=
    congrArg (Option.map _) hx
  have hrun := runLine_eq_respond hr nofun (within_of_unbounded hmax _)
  simp only [responseOf, Line.fields, Caller.bind, Int.not_ofNat_neg, if_false, Response.ofBytes_bytesOut] at hrun
  exact ⟨_, hrun, rfl⟩

/-- SHL needs no sequence, so MAXLEN does not come in. -/
theorem runLine_shl {c : Caller} {vs : ValueSource} {x : PortWord} (s : State) (T : IntType) (vd k : Nat)
    (hx : c.value vs = some x) :
    ∃ t, c.runLine (.shl T vd vs k) s =
        .next ({ c with values := bindName vd (zext64 (shlPattern (x.setWidth T.bits) k)) c.values }, t) ∧
      t.pending = s.pending := by
  have hr : c.request s.req (.shl T vd vs k) =
      some { s.req with cmd := encode (Instr.ofFields ⟨.shl, T⟩), valueIn := x, count := k } :=
    congrArg (Option.map _) hx
  have hrun := runLine_eq_respond hr nofun fun _ _ => Nat.zero_le _
  simp only [responseOf, Line.fields, Caller.bind, Int.not_ofNat_neg, and_false, if_false, Request.operand,
    bindValue_ofValue] at hrun
  exact ⟨_, hrun, rfl⟩

/-! ### The values as the spec's numbers -/

/-- SHL with `count >= 0` multiplies the operand by a power of two and keeps the low `W` bits (R141, R142). -/
theorem toNat_shlPattern {W : Nat} (p : BitVec W) (k : Nat) : (shlPattern p k).toNat = p.toNat * 2 ^ k % 2 ^ W := by
  rw [shlPattern_eq p k (Int.natCast_nonneg k), Int.toNat_natCast, BitVec.toNat_shiftLeft, Nat.shiftLeft_eq]

/-- One element more at the front doubles the sum of R82 and adds 1 for a `One`. -/
theorem onesSum_cons (b : Bit) (bits : List Bit) : onesSum (b :: bits) = Nat.bit (b = .one) (onesSum bits) := by
  have hsum : onesSum (b :: bits) = (if b = .one then 1 else 0) + 2 * onesSum bits := by
    simp [onesSum, List.range_succ_eq_map, Function.comp_def, pow_succ', ← List.sum_map_mul_left]
  rw [hsum, Nat.bit_val, Nat.add_comm]
  cases b <;> rfl

theorem testBit_onesSum (bits : List Bit) (i : Nat) : (onesSum bits).testBit i = decide (bits[i]? = some Bit.one) := by
  induction bits generalizing i with
  | nil => simp [onesSum]
  | cons b rest ih =>
    rw [onesSum_cons]
    cases i with
    | zero => simp
    | succ i => rw [Nat.testBit_bit_succ, ih, List.getElem?_cons_succ]

/-- PACK of at most `W` elements is the sum of R82. -/
theorem toNat_packPattern {W : Nat} {bits : List Bit} (h : bits.length ≤ W) :
    (packPattern W bits).toNat = onesSum bits := by
  apply Nat.eq_of_testBit_eq
  intro i
  rw [BitVec.testBit_toNat, getLsbD_packPattern, testBit_onesSum]
  by_cases hi : i < W
  · simp [hi]
  · simp [hi, List.getElem?_eq_none (h.trans (Nat.le_of_not_lt hi))]

/-! ### The statements about lines that bind -/

/-- Settles O47: a count that is not negative gives the truncating shift, and the binding replaces `vd` alone. -/
theorem shlLineBindsTheShiftedValue : Obligations.ShlLineBindsTheShiftedValue := by
  intro c s T vd vs x k hx
  obtain ⟨t, hrun, hpending⟩ := runLine_shl s T vd k hx
  refine ⟨_, t, _, hrun, lookup_bindName_self _ _ _, ?_, fun _ hname => lookup_bindName_other _ _ hname, rfl, hpending⟩
  rw [zext64_toNat (bits_le_64 T), toNat_shlPattern, BitVec.toNat_setWidth]

/-- Settles O48: the pattern bound is the sum of R82. -/
theorem packLineBindsThePackedValue : Obligations.PackLineBindsThePackedValue := by
  intro c s T vd bits hmax hsg hn
  obtain ⟨t, hrun⟩ := runLine_pack c vd hmax hsg hn
  refine ⟨_, t, _, hrun, lookup_bindName_self _ _ _, ?_, rfl⟩
  rw [zext64_toNat (bits_le_64 T), toNat_packPattern hn]

/-- Settles O49: the second line reads the buffer the first one bound, and DECODE of ENCODE at one type keeps every lane. -/
theorem encodeLineThenDecodeLineKeepsTheValue : Obligations.EncodeLineThenDecodeLineKeepsTheValue := by
  intro c s T bd vd vs x hmax hx
  obtain ⟨s1, henc, hparams⟩ := runLine_encode T bd T.bytes hmax hx
  have hmax1 : s1.params.maxLen = none := by rw [hparams, hmax]
  have hbuf := buffer_held_of_bound c bd (encodeBytes T.bytes (x.setWidth T.bits) T.bytes)
  obtain ⟨s2, hdec⟩ := runLine_decode T vd hmax1 hbuf
  refine ⟨_, _, s1, s2, _, _, henc, hbuf, length_encodeBytes _ _ _, hdec,
    lookup_bindName_self _ _ _, ?_⟩
  have hval := toNat_decodePattern_encodeBytes T T { s.req with valueIn := x } T.bytes
  rwa [min_self, min_self, Nat.mul_comm, ← zext64_toNat (bits_le_64 T)] at hval

end Sys2Proof.Proofs
end

section
/-! The statements of spec/40_bitpacker.md: PACK of a sequence that fits (R80, R82, L7), of one that does not (R84), the
source's examples (R89), and SHL of a packed `One` (L8). -/

namespace Sys2Proof.Proofs

open Sys2Proof.Machine Sys2Proof.Slice0

/-! ### PACK and SHL as they answer -/

theorem fields_of_mem_packTable :
    ∀ p ∈ packTable, p.1.fields.op = .pack ∧ p.1.fields.type.signed = false ∧ p.1.fields.type.bits = p.2 := by decide

theorem width_le_64_of_mem_packTable : ∀ p ∈ packTable, p.2 ≤ 64 := by decide

theorem op_of_mem_shlTable : ∀ p ∈ shlTable, p.1.fields.op = .shl ∧ p.1.fields.type.bits = p.2 := by decide

/-- A sequence that fits into `W` bits packs to the same port word as at the full 64 bits, so that the width of the
command is gone from its result. -/
theorem zext64_packPattern {W : Nat} {bits : List Bit} (hn : bits.length ≤ W) (hW : W ≤ 64) :
    zext64 (packPattern W bits) = packPattern 64 bits := by
  apply BitVec.eq_of_toNat_eq
  rw [zext64_toNat hW, toNat_packPattern hn, toNat_packPattern (hn.trans hW)]

/-- PACK of at most `W(T)` elements, MAXLEN set or not (R80, R56). -/
theorem exec_pack_eq_needing {p : Instr × Nat} (hp : p ∈ packTable) {s : State} (hn : s.req.bitsIn.length ≤ p.2) :
    exec p.1 s = needing s.req.bitsIn.length s (afterValue s (packPattern 64 s.req.bitsIn)) := by
  obtain ⟨hop, hsg, hbits⟩ := fields_of_mem_packTable p hp
  rw [← hbits] at hn
  rw [exec_eq_needing fun _ _ => hn, neededLength, responseOf, hop, hsg, ← zext64_packPattern hn (bits_le_64 _)]
  rfl

/-- PACK of at most `W(T)` elements that MAXLEN admits. -/
theorem exec_pack {p : Instr × Nat} (hp : p ∈ packTable) {s : State} (hn : s.req.bitsIn.length ≤ p.2)
    (hw : within s s.req.bitsIn.length) :
    exec p.1 s = .next (afterValue s (packPattern 64 s.req.bitsIn)) := by
  rw [exec_pack_eq_needing hp hn, needing_of_admits ((within_iff_admits s _).1 hw)]

/-- PACK of a sequence written onto the ports of a machine without MAXLEN. -/
theorem exec_pack_withBits {p : Instr × Nat} (hp : p ∈ packTable) {s : State} (hmax : s.params.maxLen = none)
    {bits : List Bit} (hn : bits.length ≤ p.2) :
    exec p.1 (withBits s bits) = .next (afterValue (withBits s bits) (packPattern 64 bits)) :=
  exec_pack hp (s := withBits s bits) hn (within_of_unbounded hmax _)

/-- SHL by a count that is not negative delivers the zero-extended pattern of R140. -/
theorem exec_shl {i : Instr} {s : State} {k : Nat} (hop : i.fields.op = .shl) (hk : s.req.count = k) :
    exec i s = .next (afterValue s (zext64 (shlPattern (s.req.operand i.fields.type.bits) k))) := by
  rw [exec_eq_commandOf, commandOf, hop]
  dsimp only
  rw [shlCommand_ok _ _ (.inr (by omega)), hk]
  rfl

/-! ### The sum of R82 -/

theorem onesSum_lt (bits : List Bit) : onesSum bits < 2 ^ bits.length :=
  toNat_packPattern (le_refl bits.length) ▸ (packPattern bits.length bits).isLt

theorem onesSum_append_zero (bits : List Bit) : onesSum (bits ++ [Bit.zero]) = onesSum bits := by
  induction bits with
  | nil => rfl
  | cons b rest ih => rw [List.cons_append, onesSum_cons, onesSum_cons, ih]

theorem onesSum_zeros_one (k : Nat) : onesSum (List.replicate k Bit.zero ++ [Bit.one]) = 2 ^ k := by
  induction k with
  | zero => rfl
  | succ k ih =>
    rw [List.replicate_succ, List.cons_append, onesSum_cons, ih, pow_succ']
    rfl

/-- SHL by `k` of a packed `One` and PACK of `k` zeros and `One` are both `2^k` (L8). -/
theorem zext64_shlPattern_packed_one {W k : Nat} (hk : k < W) (hW : W ≤ 64) :
    zext64 (shlPattern ((packPattern 64 [Bit.one]).setWidth W) k) =
      packPattern 64 (List.replicate k Bit.zero ++ [Bit.one]) := by
  have hone : (packPattern 64 [Bit.one]).toNat = 1 := by decide
  have hlen : (List.replicate k Bit.zero ++ [Bit.one]).length ≤ 64 := by simp; omega
  apply BitVec.eq_of_toNat_eq
  calc (zext64 (shlPattern ((packPattern 64 [Bit.one]).setWidth W) k)).toNat
      = 1 % 2 ^ W * 2 ^ k % 2 ^ W := by rw [zext64_toNat hW, toNat_shlPattern, BitVec.toNat_setWidth, hone]
    _ = 2 ^ k := by
      rw [Nat.mod_eq_of_lt (Nat.one_lt_two_pow (by omega)), one_mul,
        Nat.mod_eq_of_lt (Nat.pow_lt_pow_right (by decide) hk)]
    _ = (packPattern 64 (List.replicate k Bit.zero ++ [Bit.one])).toNat := by
      rw [toNat_packPattern hlen, onesSum_zeros_one]

/-! ### The statements -/

/-- Settles O9: bit `k` of the result is bit `k` of the sum of R82. -/
theorem packSetsTheBitOfEachOne : Obligations.PackSetsTheBitOfEachOne := by
  intro p hp s hn hw
  have h64 := hn.trans (width_le_64_of_mem_packTable p hp)
  refine ⟨_, exec_pack hp hn hw, fun k => ?_⟩
  rw [← BitVec.testBit_toNat, toNat_packPattern h64, testBit_onesSum]

/-- Settles O10, by the sum of R82, which a `Zero` at the end does not change. -/
theorem packIsTheSumOfPowers : Obligations.PackIsTheSumOfPowers := by
  intro p hp s bits hmax hn
  have h64 := width_le_64_of_mem_packTable p hp
  have hsum : (packPattern 64 bits).toNat = onesSum bits := toNat_packPattern (hn.trans h64)
  refine ⟨_, exec_pack_withBits hp hmax hn, hsum, hsum ▸ onesSum_lt bits, fun hn' => ?_⟩
  have hlen : (bits ++ [Bit.zero]).length ≤ p.2 := by simpa using hn'
  have hzero : packPattern 64 (bits ++ [Bit.zero]) = packPattern 64 bits := by
    apply BitVec.eq_of_toNat_eq
    rw [hsum, toNat_packPattern (hlen.trans h64), onesSum_append_zero]
  rw [exec_pack_withBits hp hmax hlen, hzero]

/-- Settles O11: the free draw of R84 is a `W(T)`-bit value, and only its counter changes beside the response. -/
theorem oversizePackSucceedsWithAnyValue : Obligations.OversizePackSucceedsWithAnyValue := by
  rintro ⟨i, W⟩ hp s hn hw
  obtain ⟨hop, hsg, rfl⟩ : i.fields.op = .pack ∧ i.fields.type.signed = false ∧ i.fields.type.bits = W :=
    fields_of_mem_packTable _ hp
  refine ⟨Config.packOversize i.fields.type.bits s.req.bitsIn s.draws, ?_⟩
  rw [exec_eq_commandOf, commandOf, hop, hsg]
  exact (packCommand_oversize _ s hn).trans (needing_of_admits ((within_iff_admits s _).1 hw) _)

/-- Settles O13: at most 8 bits fit every width, and what PACK does with a sequence that fits does not name the width. -/
theorem packWidthsAgreeOnShortSequences : Obligations.PackWidthsAgreeOnShortSequences := by
  intro s hn
  have h8 : ∀ p ∈ packTable, 8 ≤ p.2 := by decide
  have hpack {p : Instr × Nat} (hp : p ∈ packTable) := exec_pack_eq_needing hp (s := s) (hn.trans (h8 p hp))
  have hu8 : (Instr.packU8, 8) ∈ packTable := by decide
  have hu16 : (Instr.packU16, 16) ∈ packTable := by decide
  have hu32 : (Instr.packU32, 32) ∈ packTable := by decide
  have hu64 : (Instr.packU64, 64) ∈ packTable := by decide
  rw [hpack hu8, hpack hu16, hpack hu32, hpack hu64]
  exact ⟨rfl, rfl, rfl⟩

/-- Settles O28: PACK gives `k` zeros and `One` the value of the shifted `One`, since both sequences fit. -/
theorem shlOfPackedOneIsPackedShifted : Obligations.ShlOfPackedOneIsPackedShifted := by
  intro q hq
  obtain ⟨hp, hs⟩ : (q.1, q.2.2) ∈ packTable ∧ (q.2.1, q.2.2) ∈ shlTable := by revert q; decide
  intro s k hmax hk
  obtain ⟨hop, hbits⟩ := op_of_mem_shlTable _ hs
  have hone : [Bit.one].length ≤ q.2.2 := Nat.one_le_of_lt hk
  have hzeros : (List.replicate k Bit.zero ++ [Bit.one]).length ≤ q.2.2 := by simpa using hk
  refine ⟨_, _, exec_pack_withBits hp hmax hone, ?_, exec_pack_withBits hp hmax hzeros⟩
  rw [← zext64_shlPattern_packed_one hk (width_le_64_of_mem_packTable (q.1, q.2.2) hp), ← hbits]
  exact exec_shl hop rfl

/-- Settles O12: the three sequences fit every width, and their 64-bit patterns are 0, 1 and 2. -/
theorem packSourceProperties : Obligations.PackSourceProperties := by
  intro p hp s hmax
  have h2 : 2 ≤ p.2 := by revert p; decide
  exact ⟨exec_pack_withBits hp hmax (Nat.zero_le _), exec_pack_withBits hp hmax (Nat.one_le_of_lt h2),
    exec_pack_withBits hp hmax h2⟩

end Sys2Proof.Proofs
end

section
/-! The statements of spec/41_byte_integer_codec.md: DECODE as the big-endian numeral and as byte lanes (R100, R101, R104),
ENCODE as lanes and as a numeral (R111, R113, R114), the round trips (R115), and the signed commands (R102, R112, R146). -/

namespace Sys2Proof.Proofs

open Sys2Proof.Machine Sys2Proof.Slice0

/-! ### The big-endian numeral of R101 -/

theorem pow_256_eq_two_pow (n : Nat) : 256 ^ n = 2 ^ (8 * n) := (pow_mul 2 8 n).symm

/-- The first byte is the most significant one. -/
theorem numeral_cons (x : Byte) (b : List Byte) : numeral (x :: b) = 2 ^ (8 * b.length) * x.toNat + numeral b := by
  have hexp (k : Nat) : b.length + 1 - 1 - (k + 1) = b.length - 1 - k := by omega
  simp only [numeral, List.length_cons, List.range_succ_eq_map, List.map_cons, List.map_map, List.sum_cons,
    Function.comp_def, List.getD_cons_zero, List.getD_cons_succ, Nat.succ_eq_add_one, hexp]
  rw [Nat.sub_zero, Nat.add_sub_cancel, pow_256_eq_two_pow, Nat.mul_comm]

theorem numeral_append (a b : List Byte) : numeral (a ++ b) = 2 ^ (8 * b.length) * numeral a + numeral b := by
  induction a with
  | nil => simp [numeral]
  | cons x a ih =>
    rw [List.cons_append, numeral_cons, numeral_cons, ih, List.length_append]
    ring

theorem numeral_zeros_append (k : Nat) (b : List Byte) : numeral (List.replicate k 0#8 ++ b) = numeral b := by
  induction k with
  | zero => rfl
  | succ k ih => simp [List.replicate_succ, numeral_cons, ih]

/-- Modulo `256^w` the last `w` bytes of a longer buffer decide. -/
theorem numeral_drop_mod {w : Nat} {b : List Byte} (h : w ≤ b.length) :
    numeral (b.drop (b.length - w)) % 2 ^ (8 * w) = numeral b % 2 ^ (8 * w) := by
  have hlen : (b.drop (b.length - w)).length = w := by rw [List.length_drop]; omega
  conv_rhs => rw [← List.take_append_drop (b.length - w) b, numeral_append, hlen, Nat.mul_add_mod]

/-- Bit `i` of the numeral is bit `i % 8` of the byte `i / 8` places from the end, or zero where there is none. -/
theorem testBit_numeral (b : List Byte) (i : Nat) :
    (numeral b).testBit i = (decide (i / 8 < b.length) && (b.getD (b.length - 1 - i / 8) 0#8).getLsbD (i % 8)) := by
  induction b using List.reverseRecOn generalizing i with
  | nil => simp [numeral]
  | append_singleton b x ih =>
    have hlast : numeral [x] = x.toNat := by simp [numeral]
    rw [numeral_append, hlast, List.length_singleton, mul_one, Nat.testBit_two_pow_mul_add _ x.isLt,
      List.length_append, List.length_singleton, Nat.add_sub_cancel]
    rcases Nat.lt_or_ge i 8 with hi | hi
    case inl => simp [hi, Nat.div_eq_of_lt hi, Nat.mod_eq_of_lt hi, BitVec.testBit_toNat]
    case inr =>
      obtain ⟨k, rfl⟩ : ∃ k, i = k + 8 := ⟨i - 8, by omega⟩
      have hdiv : (k + 8) / 8 = k / 8 + 1 := by omega
      rw [if_neg (by omega), Nat.add_sub_cancel, ih, hdiv, Nat.add_mod_right]
      by_cases hk : k / 8 < b.length
      · have hidx : b.length - (k / 8 + 1) = b.length - 1 - k / 8 := by omega
        have hin : b.length - 1 - k / 8 < b.length := by omega
        rw [hidx, List.getD_append _ _ _ _ hin]
        simp [hk]
      · simp [hk]

/-- DECODE at `w` bytes is the numeral of the whole buffer modulo `2^(8·w)` (R101). -/
theorem toNat_decodePattern (w : Nat) (b : List Byte) :
    (decodePattern (8 * w) w b).toNat = numeral b % 2 ^ (8 * w) := by
  apply Nat.eq_of_testBit_eq
  intro i
  rw [BitVec.testBit_toNat, getLsbD_decodePattern, Nat.testBit_mod_two_pow, testBit_numeral, Bool.and_assoc]

theorem numeral_lt (b : List Byte) : numeral b < 2 ^ (8 * b.length) := by
  apply Nat.lt_pow_two_of_testBit
  intro i hi
  have hout : ¬ i / 8 < b.length := by omega
  rw [testBit_numeral, decide_eq_false hout, Bool.false_and]

/-- The numeral of an encoded buffer has the bits of the lanes that both the pattern and the buffer have (R111). -/
theorem numeral_encodeBytes {W : Nat} (w : Nat) (p : BitVec W) (L : Nat) :
    numeral (encodeBytes w p L) = p.toNat % 256 ^ min w L := by
  have hlt : numeral (encodeBytes w p L) < 2 ^ (8 * L) := by simpa using numeral_lt (encodeBytes w p L)
  rw [← Nat.mod_eq_of_lt hlt, ← toNat_decodePattern, pow_256_eq_two_pow]
  apply Nat.eq_of_testBit_eq
  intro i
  rw [BitVec.testBit_toNat, getLsbD_decodePattern_encodeBytes, Nat.testBit_mod_two_pow, BitVec.testBit_toNat,
    min_assoc, min_self]

/-! ### DECODE and ENCODE as the tables of the statements give them -/

theorem bits_eq_eight_mul_bytes (T : IntType) : T.bits = 8 * T.bytes := Nat.mul_comm _ _

theorem bytes_le_8_of_mem_decodeTable : ∀ p ∈ decodeTable, p.2 ≤ 8 := by decide

/-- DECODE of a buffer that MAXLEN admits, at the width of the table. -/
theorem exec_decode_numeral {p : Instr × Nat} (hp : p ∈ decodeTable) {s : State} (hw : within s s.req.bytesIn.length) :
    exec p.1 s = .next (afterValue s (BitVec.ofNat 64 (numeral s.req.bytesIn % 2 ^ (8 * p.2)))) := by
  obtain ⟨hop, hbytes⟩ := op_of_mem_decodeTable p hp
  rw [exec_decode hop hw, bits_eq_eight_mul_bytes, hbytes, ← toNat_decodePattern,
    BitVec.ofNat_toNat, zext64]

/-- DECODE of a buffer written onto the ports of a machine without MAXLEN. -/
theorem exec_decode_withBytes {p : Instr × Nat} (hp : p ∈ decodeTable) {s : State} (hmax : s.params.maxLen = none)
    (b : List Byte) :
    exec p.1 (withBytes s b) =
      .next (afterValue (withBytes s b) (BitVec.ofNat 64 (numeral b % 2 ^ (8 * p.2)))) :=
  exec_decode_numeral hp (s := withBytes s b) (within_of_unbounded hmax _)

/-- A lane of the operand is the lane of `value_in` (R29). -/
theorem lane_operand (r : Request) {w j : Nat} (hj : j < w) :
    lane (r.operand (8 * w)) j = r.valueIn.extractLsb' (8 * j) 8 := by
  apply BitVec.eq_of_getLsbD_eq
  intro i hi
  have hbit : 8 * j + i < 8 * w := by omega
  simp [getLsbD_lane, Request.operand, hbit]

/-- ENCODE into `L` bytes that MAXLEN admits, at the width of the table. -/
theorem exec_encode_of_mem {p : Instr × Nat} (hp : p ∈ encodeTable) {s : State} {L : Nat} (hL : s.req.totalBytes = L)
    (hw : within s L) : exec p.1 s = .next (afterBytes s (encodeBytes p.2 (s.req.operand (8 * p.2)) L)) := by
  obtain ⟨hop, hbytes⟩ := op_of_mem_encodeTable p hp
  rw [exec_encode hop hL hw, bits_eq_eight_mul_bytes, hbytes]

/-- ENCODE as the table of R111: byte `i` is lane `L-1-i` of `value_in`, or zero where the operand has no such lane. -/
theorem encodeBytes_eq_map (w : Nat) (r : Request) (L : Nat) :
    encodeBytes w (r.operand (8 * w)) L =
      (List.range L).map fun i => if L - 1 - i < w then r.valueIn.extractLsb' (8 * (L - 1 - i)) 8 else 0#8 := by
  apply List.ext_getElem?
  intro i
  rcases Nat.lt_or_ge i L with hi | hi
  case inr => simp [hi]
  case inl =>
    rw [getElem?_encodeBytes _ _ _ _ hi, List.getElem?_map, List.getElem?_range hi, Option.map_some]
    split
    case isTrue hj => rw [lane_operand r hj]
    case isFalse => rfl

/-! ### DECODE -/

/-- Settles O14: the value is the numeral of R101 itself. -/
theorem decodeIsTheBigEndianNumeral : Obligations.DecodeIsTheBigEndianNumeral := by
  intro p hp s hw
  have h64 : 8 * p.2 ≤ 64 := Nat.mul_le_mul_left 8 (bytes_le_8_of_mem_decodeTable p hp)
  refine ⟨_, exec_decode_numeral hp hw, ?_⟩
  have hlt : numeral s.req.bytesIn % 2 ^ (8 * p.2) < 2 ^ 64 :=
    (Nat.mod_lt _ (Nat.two_pow_pos _)).trans_le (Nat.pow_le_pow_right (by decide) h64)
  rw [BitVec.toNat_ofNat, Nat.mod_eq_of_lt hlt]

/-- Settles O15, bit by bit: bit `8·j + i` of the numeral is bit `i` of the byte `j` places from the end. -/
theorem decodePutsTheLastBytesInTheLanes : Obligations.DecodePutsTheLastBytesInTheLanes := by
  intro p hp s hw
  refine ⟨_, exec_decode_numeral hp hw, fun j hj => ?_⟩
  apply BitVec.eq_of_getLsbD_eq
  intro i hi
  have h64 : 8 * j + i < 64 := by omega
  have hdiv : (8 * j + i) / 8 = j := by omega
  have hmod : (8 * j + i) % 8 = i := by omega
  have hlow : 8 * j + i < 8 * p.2 ↔ j < p.2 := by omega
  rw [BitVec.getLsbD_extractLsb', BitVec.getLsbD_ofNat, Nat.testBit_mod_two_pow, testBit_numeral, hdiv, hmod]
  by_cases hin : j < p.2 ∧ j < s.req.bytesIn.length
  · simp [hi, h64, hlow, hin]
  · rw [if_neg hin, BitVec.getLsbD_zero]
    rcases not_and_or.1 hin with hout | hout <;> simp [hlow, hout]

/-- Settles O16: modulo `256^w` the numeral depends on neither the leading bytes dropped nor the zeros put in front. -/
theorem decodeDropsLeadingBytesAndPadsWithZeros : Obligations.DecodeDropsLeadingBytesAndPadsWithZeros := by
  intro p hp s b hmax
  refine ⟨_, exec_decode_withBytes hp hmax b, fun hlong => ?_, fun _ => ?_⟩
  · rw [exec_decode_withBytes hp hmax, numeral_drop_mod hlong.le]
  · rw [exec_decode_withBytes hp hmax, numeral_zeros_append]

/-! ### ENCODE -/

/-- Settles O17, by the table of R111. -/
theorem encodeLaysTheLanesBigEndian : Obligations.EncodeLaysTheLanesBigEndian := by
  intro p hp s L hL hw
  rw [exec_encode_of_mem hp hL hw, encodeBytes_eq_map]

/-- Settles O18, by the numeral of the encoded buffer. -/
theorem encodeIsTheNumeralOfTheLowBytes : Obligations.EncodeIsTheNumeralOfTheLowBytes := by
  intro p hp s L hL hw
  refine ⟨_, exec_encode_of_mem hp hL hw, length_encodeBytes _ _ _, ?_⟩
  have hdvd : 256 ^ min p.2 L ∣ 256 ^ p.2 := pow_dvd_pow _ (min_le_left _ _)
  rw [numeral_encodeBytes, Request.operand, BitVec.toNat_setWidth, ← pow_256_eq_two_pow, Nat.mod_mod_of_dvd _ hdvd]

/-- Settles O19: the error is raised on the sign of `total_bytes` alone, and past that test there is a buffer. -/
theorem encodeOfNegativeLengthFaults : Obligations.EncodeOfNegativeLengthFaults := by
  intro p hp s
  obtain ⟨hop, -⟩ := op_of_mem_encodeTable p hp
  have hexec : exec p.1 s = encodeCommand p.1.fields.type s := by rw [exec_eq_commandOf, commandOf, hop]
  rw [hexec]
  constructor
  · exact encodeCommand_negative _ s
  · intro hL t r h hr
    rw [encodeCommand_nonneg _ s hL] at h
    obtain ⟨-, rfl⟩ := needing_eq_next.1 h
    cases hr
    rfl

/-- Settles O20: the table of R111 at `L = 0`, a length that every MAXLEN admits. -/
theorem encodeOfZeroLengthIsEmpty : Obligations.EncodeOfZeroLengthIsEmpty :=
  fun p hp s hL => encodeLaysTheLanesBigEndian p hp s 0 hL fun _ _ => Nat.zero_le _

/-! ### The round trips -/

theorem mem_tables_of_mem_codecTable :
    ∀ q ∈ codecTable, (q.1, q.2.2) ∈ decodeTable ∧ (q.2.1, q.2.2) ∈ encodeTable := by decide

/-- A word whose low lanes are the bytes of `b`, last byte first, is encoded as `b`. -/
theorem map_lanes_eq {v : PortWord} {b : List Byte}
    (h : ∀ j < b.length, v.extractLsb' (8 * j) 8 = b.getD (b.length - 1 - j) 0#8) :
    ((List.range b.length).map fun i =>
      if b.length - 1 - i < b.length then v.extractLsb' (8 * (b.length - 1 - i)) 8 else 0#8) = b := by
  apply List.ext_getElem (by simp)
  intro i _ hi
  have hj : b.length - 1 - i < b.length := by omega
  have hi' : b.length - 1 - (b.length - 1 - i) = i := by omega
  rw [List.getElem_map, List.getElem_range, if_pos hj, h _ hj, hi', List.getD_eq_getElem _ _ hi]

/-- Settles O21: lanes give the bytes back, and the mixed-width rule at equal widths gives the value back. -/
theorem codecRoundTrips : Obligations.CodecRoundTrips := by
  rintro ⟨dec, enc, w⟩ hq s hmax
  obtain ⟨hd, he⟩ : (dec, w) ∈ decodeTable ∧ (enc, w) ∈ encodeTable := mem_tables_of_mem_codecTable _ hq
  have h8 : w ≤ 8 := bytes_le_8_of_mem_decodeTable _ hd
  constructor
  · rintro b rfl
    obtain ⟨v, hv, hlanes⟩ := decodePutsTheLastBytesInTheLanes _ hd (withBytes s b) (within_of_unbounded hmax _)
    have henc := encodeLaysTheLanesBigEndian _ he (withEncode s v b.length) b.length rfl (within_of_unbounded hmax _)
    have hback := map_lanes_eq (v := v) fun j hj => (hlanes j (hj.trans_le h8)).trans (if_pos ⟨hj, hj⟩)
    exact ⟨v, hv, henc.trans (congrArg (fun o => Host.Outcome.next (afterBytes _ o)) hback)⟩
  · intro p L hp
    obtain ⟨b, v, henc, hdec, hval⟩ := mixedWidthViewKeepsTheLowLanes _ he _ hd s p L hmax
    rw [min_self] at hval
    refine ⟨b, v, henc, hdec, fun hle => ?_, fun hlt => ?_⟩
    · rw [min_eq_left hle, Nat.mod_eq_of_lt hp] at hval
      exact BitVec.eq_of_toNat_eq hval
    · rw [hval, min_eq_right hlt.le, pow_256_eq_two_pow]

/-! ### Signed commands -/

/-- Apart from PACK, a command does not read the signedness of its type. -/
theorem commandOf_signed {f : CmdFields} (hop : f.op ≠ .pack) (sg : Bool) (s : State) :
    commandOf { f with type.signed := sg } s = commandOf f s := by
  obtain ⟨op, T⟩ := f
  cases op
  case pack => exact absurd rfl hop
  case decode => rfl
  case encode => rfl
  case shl => rfl

theorem fields_of_mem_signTable :
    ∀ q ∈ signTable, q.1.fields.op ≠ .pack ∧ q.2.fields = { q.1.fields with type.signed := true } := by decide

/-- Settles O30: the two commands have one operation, not PACK, and one width. -/
theorem signedCommandsComputeAsUnsigned : Obligations.SignedCommandsComputeAsUnsigned := by
  intro q hq s
  obtain ⟨hop, hfields⟩ := fields_of_mem_signTable q hq
  rw [exec_eq_commandOf, exec_eq_commandOf, hfields, commandOf_signed hop]

end Sys2Proof.Proofs
end

section
/-! The statements of spec/42_width_aware_shifter.md: SHL by a count that is not negative (R141, R142, R146, L5), of a zero
operand (R144), by a negative count (R145), and the source's examples (R158). -/

namespace Sys2Proof.Proofs

open Sys2Proof.Machine Sys2Proof.Slice0

/-! ### The operand and the result as bits and as numbers -/

theorem getLsbD_zext64 {W : Nat} (hW : W ≤ 64) (p : BitVec W) (i : Nat) : (zext64 p).getLsbD i = p.getLsbD i := by
  rw [← BitVec.testBit_toNat, zext64_toNat hW, BitVec.testBit_toNat]

theorem operand_eq_zero_iff (r : Request) (W : Nat) : r.operand W = 0#W ↔ r.valueIn.toNat % 2 ^ W = 0 := by
  rw [← BitVec.toNat_inj, Request.operand, BitVec.toNat_setWidth, BitVec.toNat_zero]

/-! ### SHL as it answers -/

theorem exec_eq_shlCommand {i : Instr} (hop : i.fields.op = .shl) (s : State) :
    exec i s = shlCommand i.fields.type s := by
  rw [exec_eq_commandOf, commandOf, hop]

/-- SHL by a count that is not negative delivers the truncating shift of the operand. -/
theorem exec_shl_shiftLeft {i : Instr} {s : State} {k : Nat} (hop : i.fields.op = .shl) (hk : s.req.count = k) :
    exec i s = .next (afterValue s (zext64 (s.req.operand i.fields.type.bits <<< k))) := by
  rw [exec_shl hop hk, shlPattern_eq _ _ (Int.natCast_nonneg k), Int.toNat_natCast]

/-- The same for an operand and a count written onto the ports. -/
theorem exec_shl_withShift {i : Instr} (hop : i.fields.op = .shl) (s : State) (x : PortWord) (k : Nat) :
    exec i (withShift s x k) =
      .next (afterValue (withShift s x k) (zext64 (x.setWidth i.fields.type.bits <<< k))) :=
  exec_shl_shiftLeft hop rfl

/-! ### The statements -/

/-- Settles O23: the shift of the operand is a product modulo `2^W`, and no bit is left of it from `W` on. -/
theorem shlIsTheTruncatingShift : Obligations.ShlIsTheTruncatingShift := by
  rintro ⟨i, W⟩ hp s hcount
  obtain ⟨hop, rfl⟩ : i.fields.op = .shl ∧ i.fields.type.bits = W := op_of_mem_shlTable _ hp
  obtain ⟨k, hk⟩ := Int.eq_ofNat_of_zero_le hcount
  refine ⟨_, exec_shl_shiftLeft hop hk, ?_, fun hle => ?_⟩
  · rw [zext64_toNat (bits_le_64 _), BitVec.toNat_shiftLeft, Nat.shiftLeft_eq, Request.operand,
      BitVec.toNat_setWidth, hk, Int.toNat_natCast]
  · have hk' : i.fields.type.bits ≤ k := by rw [hk] at hle; exact_mod_cast hle
    rw [BitVec.shiftLeft_eq_zero hk', zext64, BitVec.setWidth_zero]

/-- Settles O27: the second SHL reads back the pattern the first one delivered, and shifts of a pattern add up. -/
theorem shlComposes : Obligations.ShlComposes := by
  intro p hp s x a b ha hb
  obtain ⟨hop, -⟩ := op_of_mem_shlTable p hp
  obtain ⟨a, rfl⟩ := Int.eq_ofNat_of_zero_le ha
  obtain ⟨b, rfl⟩ := Int.eq_ofNat_of_zero_le hb
  refine ⟨_, _, exec_shl_withShift hop s x a, exec_shl_withShift hop s _ b, ?_⟩
  rw [setWidth_zext64, ← BitVec.shiftLeft_add, ← Int.natCast_add]
  exact exec_shl_withShift hop s x (a + b)

/-- Settles O29: bit `W - 1` of the shifted operand is its bit `W - 1 - k`, and a pattern has no bit from `W` on. -/
theorem shlMovesIntoTheSignBit : Obligations.ShlMovesIntoTheSignBit := by
  rintro ⟨i, W⟩ hp s k hk hlt
  obtain ⟨hop, rfl⟩ : i.fields.op = .shl ∧ i.fields.type.bits = W := op_of_mem_shlTable _ hp
  replace hlt : k < i.fields.type.bits := hlt
  refine ⟨_, exec_shl_shiftLeft hop hk, ?_, fun j hj => ?_⟩
  · have htop : i.fields.type.bits - 1 < i.fields.type.bits := by omega
    have hkept : ¬ i.fields.type.bits - 1 < k := by omega
    have hsource : i.fields.type.bits - 1 - k < i.fields.type.bits := by omega
    rw [getLsbD_zext64 (bits_le_64 _), BitVec.getLsbD_shiftLeft, Request.operand, BitVec.getLsbD_setWidth]
    simp only [htop, hkept, hsource, decide_true, decide_false, Bool.not_false, Bool.true_and]
  · rw [getLsbD_zext64 (bits_le_64 _), BitVec.getLsbD_of_ge _ _ hj]

/-- Settles O24: the zero test comes before the test of the sign of the count. -/
theorem shlOfZeroIsZeroForAnyCount : Obligations.ShlOfZeroIsZeroForAnyCount := by
  rintro ⟨i, W⟩ hp s hzero
  obtain ⟨hop, rfl⟩ : i.fields.op = .shl ∧ i.fields.type.bits = W := op_of_mem_shlTable _ hp
  have hoperand := (operand_eq_zero_iff s.req i.fields.type.bits).2 hzero
  rw [exec_eq_shlCommand hop, shlCommand_ok _ _ (.inl hoperand), hoperand, shlPattern_zero, zext64,
    BitVec.setWidth_zero]
  rfl

/-- Settles O25: a nonzero operand reaches the test of the sign of the count, a zero one never does. -/
theorem shlByNegativeCountFaults : Obligations.ShlByNegativeCountFaults := by
  rintro ⟨i, W⟩ hp s hcount
  obtain ⟨hop, rfl⟩ : i.fields.op = .shl ∧ i.fields.type.bits = W := op_of_mem_shlTable _ hp
  refine ⟨fun hne => ?_, shlOfZeroIsZeroForAnyCount _ hp s⟩
  have hoperand := mt (operand_eq_zero_iff s.req i.fields.type.bits).1 hne
  exact (exec_eq_shlCommand hop s).trans (shlCommand_negative _ s hoperand hcount)

/-- Settles O26: each example is the shift of an 8-bit pattern. -/
theorem shlSourceExamples : Obligations.ShlSourceExamples := by
  intro s
  have hshl := exec_shl_withShift (i := .shlU8) rfl s
  exact ⟨hshl 1#64 1, hshl 1#64 7, hshl 1#64 8, hshl 0xFF#64 1⟩

end Sys2Proof.Proofs
end

section
/-! The statements of spec/60_exceptions.md: which precondition a request breaks (R171), the reserved words (R174), and the
edge cases that are no errors (R183). -/

namespace Sys2Proof.Proofs

open Sys2Proof.Machine Sys2Proof.Slice0

/-! ### The reserved words -/

theorem mem_reservedTable_iff (i : Instr) :
    i ∈ reservedTable ↔ i.fields.op = .pack ∧ i.fields.type.signed = true := by
  cases i <;> decide

theorem exec_reserved {i : Instr} (hi : i ∈ reservedTable) (s : State) : exec i s = reservedCommand s := by
  obtain ⟨hop, hsg⟩ := (mem_reservedTable_iff i).1 hi
  rw [exec_eq_commandOf, commandOf, hop]
  exact if_pos hsg

theorem decode_mem_reservedTable_iff : ∀ w : BitVec 5, decode w ∈ reservedTable ↔ 4 ≤ w.toNat ∧ w.toNat ≤ 7 := by
  decide

/-- Settles O31: the reserved rows are the signed PACKs, and their command raises IllegalCommand on any ports. -/
theorem reservedWordsReportIllegalCommand : Obligations.ReservedWordsReportIllegalCommand :=
  ⟨decode_mem_reservedTable_iff, fun _ hi s => exec_reserved hi s⟩

/-! ### The precondition that a request breaks -/

/-- The precondition of R171 that a request breaks, if there is one: a reserved word, a negative length of ENCODE, or a
negative count of SHL with a nonzero operand. -/
def brokenPrecondition (f : CmdFields) (r : Request) : Option Cause :=
  match f.op with
  | .pack => if f.type.signed then some .illegalCommand else none
  | .decode => none
  | .encode => if r.totalBytes < 0 then some .negativeTotalBytes else none
  | .shl => if r.operand f.type.bits ≠ 0 ∧ r.count < 0 then some .negativeCount else none

theorem brokenPrecondition_negativeTotalBytes_iff (i : Instr) (r : Request) :
    brokenPrecondition i.fields r = some .negativeTotalBytes ↔ IsEncode i ∧ r.totalBytes < 0 := by
  rw [isEncode_iff, brokenPrecondition]
  cases hop : i.fields.op <;> simp

theorem brokenPrecondition_negativeCount_iff (i : Instr) (r : Request) :
    brokenPrecondition i.fields r = some .negativeCount ↔
      IsShl i ∧ r.operand i.fields.type.bits ≠ 0 ∧ r.count < 0 := by
  rw [isShl_iff, brokenPrecondition]
  cases hop : i.fields.op <;> simp

theorem brokenPrecondition_illegalCommand_iff (i : Instr) (r : Request) :
    brokenPrecondition i.fields r = some .illegalCommand ↔ i ∈ reservedTable := by
  rw [mem_reservedTable_iff, brokenPrecondition]
  cases hop : i.fields.op <;> simp

/-- The operand test of SHL as the table of R171 writes it. -/
theorem exists_mem_shlTable_iff (i : Instr) (r : Request) :
    (∃ p ∈ shlTable, p.1 = i ∧ r.valueIn.toNat % 2 ^ p.2 ≠ 0) ↔ IsShl i ∧ r.operand i.fields.type.bits ≠ 0 := by
  have hoperand : r.operand i.fields.type.bits ≠ 0 ↔ r.valueIn.toNat % 2 ^ i.fields.type.bits ≠ 0 :=
    not_congr (operand_eq_zero_iff r _)
  rw [hoperand, isShl_iff]
  constructor
  · rintro ⟨p, hp, rfl, hne⟩
    obtain ⟨hop, hW⟩ := op_of_mem_shlTable p hp
    exact ⟨hop, hW ▸ hne⟩
  · rintro ⟨hop, hne⟩
    exact ⟨_, mem_shlTable_of_op hop, rfl, hne⟩

/-- The edge cases of R183 break no precondition. -/
theorem brokenPrecondition_eq_none {i : Instr} {r : Request}
    (h : IsPack i ∨ IsDecode i ∨ (IsEncode i ∧ 0 ≤ r.totalBytes) ∨ (IsShl i ∧ 0 ≤ r.count)) :
    brokenPrecondition i.fields r = none := by
  rw [isPack_iff, isDecode_iff, isEncode_iff, isShl_iff] at h
  rw [brokenPrecondition]
  rcases h with ⟨hop, hsg⟩ | hop | ⟨hop, hL⟩ | ⟨hop, hc⟩
  · simp [hop, hsg]
  · simp [hop]
  · simp [hop, hL]
  · simp [hop, hc]

/-! ### Status and cause -/

/-- `status` and `cause` as R171 tabulates them, by the precondition that is broken. -/
def Reports (r : Response) : Option Cause → Prop
  | none => r.status = 0#1 ∧ r.cause = 0b00#2
  | some c => r.status = 1#1 ∧ r.cause = c.code

theorem code_injective : Function.Injective Cause.code := by
  intro c d
  cases c <;> cases d <;> decide

/-- The cause port carries the code of a cause exactly when that is the one reported. -/
theorem cause_eq_code_iff {r : Response} {b : Option Cause} (h : Reports r b) (c : Cause) :
    r.cause = c.code ↔ b = some c := by
  cases b with
  | none => simp [h.2, c.code_ne_none.symm]
  | some d => rw [h.2, code_injective.eq_iff, Option.some_inj]

theorem status_eq_zero_iff_cause_eq_zero {r : Response} {b : Option Cause} (h : Reports r b) :
    r.status = 0#1 ↔ r.cause = 0b00#2 := by
  cases b with
  | none => simp [h.1, h.2]
  | some d => simp [h.1, h.2, d.code_ne_none]

theorem reports_responseOf (f : CmdFields) (r : Request) : Reports (responseOf f r) (brokenPrecondition f r) := by
  rw [responseOf, brokenPrecondition]
  cases f.op <;> dsimp only
  case pack => split <;> exact ⟨rfl, rfl⟩
  case decode => exact ⟨rfl, rfl⟩
  case encode => split <;> exact ⟨rfl, rfl⟩
  case shl => split <;> exact ⟨rfl, rfl⟩

/-- Every instruction that answers reports the precondition its request breaks. An oversized PACK, whose result is any value
(R84), has no `responseOf`; like every PACK it breaks none. -/
theorem exec_reports {i : Instr} {s t : State} {r : Response} (h : exec i s = .next t) (hr : t.response = some r) :
    Reports r (brokenPrecondition i.fields s.req) := by
  by_cases hpack : IsPack i
  · obtain ⟨hop, hsg⟩ := (isPack_iff i).1 hpack
    rw [exec_eq_commandOf, commandOf, hop, hsg] at h
    obtain ⟨p, hp⟩ := packCommand_next h
    cases hr.symm.trans hp
    rw [brokenPrecondition_eq_none (.inl hpack)]
    exact ⟨rfl, rfl⟩
  · rw [exec_eq_needing fun hop hsg => absurd ((isPack_iff i).2 ⟨hop, hsg⟩) hpack] at h
    obtain ⟨-, rfl⟩ := needing_eq_next.1 h
    cases hr
    exact reports_responseOf _ _

/-- Settles O32: the cause reported is that of the precondition broken, and a request breaks at most one. -/
theorem statusAndCauseSayWhichPreconditionFailed : Obligations.StatusAndCauseSayWhichPreconditionFailed := by
  intro i s t r h hr
  have hrep := exec_reports h hr
  refine ⟨status_eq_zero_iff_cause_eq_zero hrep, ?_, ?_, ?_⟩
  · exact (cause_eq_code_iff hrep .negativeTotalBytes).trans (brokenPrecondition_negativeTotalBytes_iff i s.req)
  · rw [exists_mem_shlTable_iff, and_assoc]
    exact (cause_eq_code_iff hrep .negativeCount).trans (brokenPrecondition_negativeCount_iff i s.req)
  · exact (cause_eq_code_iff hrep .illegalCommand).trans (brokenPrecondition_illegalCommand_iff i s.req)

/-! ### What is no error -/

/-- Without MAXLEN, a request that breaks no precondition is answered with status 0. -/
theorem exec_ok_of_no_broken_precondition {i : Instr} {s : State} (hmax : s.params.maxLen = none)
    (hok : brokenPrecondition i.fields s.req = none) :
    ∃ t r, exec i s = .next t ∧ t.response = some r ∧ r.status = 0#1 ∧ r.cause = 0#2 := by
  rcases exec_answers i s with ⟨t, r, h, -, d, -⟩ | ⟨hset, -⟩
  · have hr : t.response = some r := by rw [d]
    have hrep := exec_reports h hr
    rw [hok] at hrep
    exact ⟨t, r, h, hr, hrep⟩
  · exact absurd hmax hset

/-- Settles O33: the cases named break no precondition, and without MAXLEN nothing is refused. -/
theorem documentedEdgeCasesSucceed : Obligations.DocumentedEdgeCasesSucceed :=
  fun _ _ hmax h => exec_ok_of_no_broken_precondition hmax (brokenPrecondition_eq_none h)

end Sys2Proof.Proofs
end

section
/-! The statements of spec/70_reset_and_hazards.md: the caller's duties (R205) give status 0 and no free value, on one command,
on a step and along a run; and every command ends (R207). -/

namespace Sys2Proof.Proofs

open Sys2Proof.Machine Sys2Proof.Slice0

/-! ### What the caller's duties rule out -/

/-- A request that keeps its duties breaks no precondition of R171. -/
theorem brokenPrecondition_of_dutiesKept {i : Instr} {r : Request} (h : dutiesKept i r) :
    brokenPrecondition i.fields r = none := by
  rw [dutiesKept] at h
  rw [brokenPrecondition]
  cases hop : i.fields.op <;> simp only [hop] at h ⊢
  case pack => simp [h.1]
  case encode => exact if_neg h.not_gt
  case shl => exact if_neg fun ⟨hne, hneg⟩ => h.elim hne hneg.not_ge

/-- The response to a request that keeps its duties has status 0. -/
theorem status_responseOf_of_dutiesKept {i : Instr} {r : Request} (h : dutiesKept i r) :
    (responseOf i.fields r).status = 0#1 := by
  have hrep := reports_responseOf i.fields r
  rw [brokenPrecondition_of_dutiesKept h] at hrep
  exact hrep.1

/-- Duty (a) of R205: a PACK has no more bits than its width. -/
theorem fits_of_dutiesKept {i : Instr} {r : Request} (h : dutiesKept i r) (hop : i.fields.op = .pack) :
    r.n ≤ i.fields.type.bits := by
  rw [dutiesKept, hop] at h
  exact h.2

/-- The result of a request that keeps its duties is no free value (R84). -/
theorem not_oversize_of_dutiesKept {r : Request} (h : dutiesKept (decode r.cmd) r) : ¬ Oversize r := by
  rintro ⟨p, hp, hi, hlt⟩
  obtain ⟨hop, -, hW⟩ := fields_of_mem_packTable p hp
  have hn := fits_of_dutiesKept h (hi ▸ hop)
  rw [hi, hW] at hn
  exact absurd hlt hn.not_gt

/-! ### Runs without errors -/

/-- Delivering more responses of status 0 leaves a run without errors. -/
theorem noErrorDelivered_append {s t : State} {l : List Response} (hs : s.NoErrorDelivered)
    (ht : t.delivered = s.delivered ++ l) (hl : ∀ r ∈ l, r.status = 0#1) : t.NoErrorDelivered := by
  rw [State.NoErrorDelivered, ht, List.forall_mem_append]
  exact ⟨hs, hl⟩

/-- Settles O53: both lists are empty at reset. -/
theorem safeRunHoldsAtReset : Obligations.SafeRunHoldsAtReset :=
  ⟨nofun, nofun⟩

/-- Settles O52: a step that goes on is idle, or delivers the response of the next request, whose duties give status 0. -/
theorem everyStepKeepsASafeRun : Obligations.EveryStepKeepsASafeRun := by
  intro s t hs h
  cases hp : s.pending with
  | nil =>
    rw [step_idle hp] at h
    cases h
    exact hs
  | cons q rest =>
    obtain ⟨hq, hrest⟩ := List.forall_mem_cons.1 (hp ▸ hs.duties_pending)
    rw [step_eq_needing hp (not_oversize_of_dutiesKept hq)] at h
    obtain ⟨-, rfl⟩ := needing_eq_next.1 h
    have hok : ∀ r ∈ [responseOf (decode q.cmd).fields q], r.status = 0#1 :=
      List.forall_mem_singleton.2 (status_responseOf_of_dutiesKept hq)
    exact ⟨noErrorDelivered_append hs.no_error rfl hok, hrest⟩

/-- Settles O44: the response is `responseOf`, and delivering it draws nothing. -/
theorem dutiesKeptGiveOkAndNoFreeValue : Obligations.DutiesKeptGiveOkAndNoFreeValue := fun _ _ hmax h =>
  ⟨_, _, exec_eq_respond hmax fun hop _ => fits_of_dutiesKept h hop, rfl, status_responseOf_of_dutiesKept h, rfl⟩

/-- Settles O45: the run delivers the responses of its requests, each of status 0. -/
theorem runThatKeepsDutiesDeliversNoError : Obligations.RunThatKeepsDutiesDeliversNoError := by
  intro s hmax hs hduties
  obtain ⟨t, hrun, hdel, -, hdraws⟩ := run_delivers_responses s.pending s rfl hmax
    fun r hr => not_oversize_of_dutiesKept (hduties r hr)
  have hok : ∀ x ∈ s.pending.map (fun r => responseOf (decode r.cmd).fields r), x.status = 0#1 :=
    List.forall_mem_map.2 fun r hr => status_responseOf_of_dutiesKept (hduties r hr)
  exact ⟨t, hrun, noErrorDelivered_append hs hdel hok, by simp [hdel], hdraws⟩

/-! ### Every command ends -/

theorem exec_ne_fault (i : Instr) (s : State) (f : Fault) : exec i s ≠ .fault f := by
  rcases exec_answers i s with ⟨t, r, e, -⟩ | ⟨-, e⟩ <;> simp [e]

theorem step_ne_fault (s : State) (f : Fault) : step s ≠ .fault f := by
  cases hp : s.pending with
  | nil => simp [step_idle hp]
  | cons q rest =>
    rw [step_command hp]
    exact exec_ne_fault _ _ f

/-- Without MAXLEN, a step takes the next request and delivers one response, oversized PACK or not. -/
theorem step_delivers_of_unbounded {s : State} {q : Request} {rest : List Request} (hmax : s.params.maxLen = none)
    (hp : s.pending = q :: rest) : ∃ t r, step s = .next t ∧ Delivers (s.present q rest) t r := by
  rw [step_command hp]
  rcases exec_answers (decode q.cmd) (s.present q rest) with ⟨t, r, h, -, d⟩ | ⟨hset, -⟩
  · exact ⟨t, r, h, d⟩
  · exact absurd hmax hset

/-- Settles O42: no command faults, the one refusal needs MAXLEN, and an idle step goes on. -/
theorem everyCommandEnds : Obligations.EveryCommandEnds := by
  refine ⟨step_ne_fault, fun s hmax => ?_, fun s q rest hmax hp => ?_⟩
  · cases hp : s.pending with
    | nil => exact ⟨s, step_idle hp⟩
    | cons q rest =>
      obtain ⟨t, -, h, -⟩ := step_delivers_of_unbounded hmax hp
      exact ⟨t, h⟩
  · obtain ⟨t, r, h, ht, -⟩ := step_delivers_of_unbounded hmax hp
    exact ⟨t, r, h, by rw [ht]; rfl, by rw [ht]; rfl⟩

end Sys2Proof.Proofs
end
